-- ==== Sys2Proof/Word.lean ====
section
/-!
DEFINITION. The widths and the fixed sets of names of the block (spec/00_scope.md R4, R5; spec/10_state.md R10, R22).
Nothing here computes: the numeric codes are in Decode.lean, the arithmetic in Machine/Operands.lean.
-/
namespace Sys2Proof

/-- A received, stored or emitted byte, and a duty threshold (R4: `BYTE_W` = `TH_W` = 8). -/
abbrev Byte := BitVec 8

/-- A cursor's count of bytes still owed (R4: `REM_W` = 9, decision D4; R15). -/
abbrev Remaining := BitVec 9

/-- A cursor's 3-bit state code (R4: `ST_W` = 3; R14, R55). Codes 5, 6 and 7 are unrecognised, but the register can hold them. -/
abbrev StateCode := BitVec 3

/-- The period counter: the naturals below `P` = 255 (R12: "a model may give `CNT` the type of naturals below 255"; the
value 255 is excluded by type, spec/93 section 2). -/
abbrev Count := Fin 255

/-- The 13-bit dispatch word `DW` (R57). -/
abbrev DispatchWord := BitVec 13

/-- The three channels, "fixed identity" (R22, R53). -/
inductive Channel where
  | red
  | green
  | blue
  deriving DecidableEq, Repr

/-- The two links: the USB-facing one and the pin-to-pin one (R5, R54). -/
inductive Link where
  | usb
  | pin
  deriving DecidableEq, Repr

end Sys2Proof
end

