-- ==== Sys2Proof/Config.lean ====
section
/-!
DEFINITION. The parameters of the block (spec/00_scope.md R4) and the decisions of spec/92_eei_decisions.md that name an
alternative (D5, D7, D12). The alternatives are written down so that a claim can be stated for both; the value each
parameter HAS here is the one the spec's rules fix. `TICK_HZ` and `BAUD` are open and nothing reads them (D17).
-/
namespace Sys2Proof

/-- What a byte does that finds `remaining == 0` outside `AWAIT_LENGTH` (D5, U1). -/
inductive UnderflowPolicy where
  /-- The byte does nothing (R97). -/
  | hold
  /-- The alternative D5 sets aside: the counter is decremented modulo `2^REM_W` and the decoder carries on. -/
  | wrap
  deriving DecidableEq, Repr

/-- Whether a threshold of 0 generates a match at the counter value 0 (D7). -/
inductive ZeroMatchPolicy where
  /-- It generates none (R76). -/
  | suppressed
  /-- The alternative D7 sets aside: it does, and the match clears the output. -/
  | fires
  deriving DecidableEq, Repr

/-- Where a header byte goes, seen from the decoder that emits it (D12: the entries of `HDR_DEST`). -/
inductive Route where
  | own
  | peer
  deriving DecidableEq, Repr

/-- `P` = 255, the number of ticks in a period (R4); `Count` is the type of the naturals below it. -/
def Config.period : Nat := 255

/-- `HDR_MIN` = 6: the loaded `remaining` from which the derived header is sent (R4). -/
def Config.hdrMin : Remaining := 6

/-- `HDR_SUB` = 3: what is subtracted from the length byte (R4; conflict C1). -/
def Config.hdrSub : Byte := 3

/-- `DONE_AT` = 1: the value of `remaining`, after its decrement, that ends a packet (R4). -/
def Config.doneAt : Remaining := 1

/-- The underflow policy of the spec's rules: hold (R97, decision D5). -/
def Config.underflow : UnderflowPolicy := .hold

/-- The zero-match policy of the spec's rules: suppressed (R76, decision D7). -/
def Config.zeroMatch : ZeroMatchPolicy := .suppressed

/-- `HDR_DEST[l][branch]` (D12): `large` is the branch `remaining >= HDR_MIN`. The same for both links (R102). -/
def Config.hdrDest (_ : Link) (large : Bool) : Route :=
  if large then .peer else .own

/-- `TICK_HZ`, the rate of the clock tick: open, and no rule depends on it (R4, D17). -/
opaque Config.tickHz : Nat

/-- `BAUD`, the common fixed baud rate: open, and no rule depends on it (R4, D17). -/
opaque Config.baud : Nat

end Sys2Proof
end

