-- ==== Sys2Proof/Syntax.lean ====
section
/-!
DEFINITION. The operations of the block, one constructor per row of spec/opcode_table.json (14 rows: `RX.NOP` has two,
spec/30_encoding.md R56). Operands are those of the row's "operands" entry.
-/
namespace Sys2Proof

/-- An operation of the block (R56). `tick`, the `rx…` operations and `reset` are selected by an event; `pstart`,
`matchR`, `matchG`, `matchB` and `emit` are sub-operations, performed inside another operation's step (R59). -/
inductive Instr where
  /-- `TICK`: one counter tick (R70). -/
  | tick
  /-- `PSTART`: period start, with the three thresholds the enclosing `TICK` read (R72). -/
  | pstart (tr tg tb : Byte)
  /-- `MATCH.R`: compare match of the red channel, with its threshold as read (R73). -/
  | matchR (t : Byte)
  /-- `MATCH.G` (R74). -/
  | matchG (t : Byte)
  /-- `MATCH.B` (R75). -/
  | matchB (t : Byte)
  /-- `RX.LEN`: length byte `b` on link `l` (R92). -/
  | rxLen (l : Link) (b : Byte)
  /-- `RX.RED` (R93). -/
  | rxRed (l : Link) (b : Byte)
  /-- `RX.GREEN` (R94). -/
  | rxGreen (l : Link) (b : Byte)
  /-- `RX.BLUE` (R95). -/
  | rxBlue (l : Link) (b : Byte)
  /-- `RX.PASS` (R96). -/
  | rxPass (l : Link) (b : Byte)
  /-- `RX.NOP`, the row of state code 5 (R58, R98). -/
  | rxNop5 (l : Link) (b : Byte)
  /-- `RX.NOP`, the row of state codes 6 and 7; `x` is the low bit of the code, `DW[8]` (R58, R98). -/
  | rxNop67 (l : Link) (x : BitVec 1) (b : Byte)
  /-- `EMIT`: byte `v` goes out on link `l`, `TX(l, v)` (R122). -/
  | emit (l : Link) (v : Byte)
  /-- `RESET` (R150). -/
  | reset
  deriving DecidableEq, Repr

end Sys2Proof
end

