-- ==== Sys2Proof/Machine/State.lean ====
section
/-!
DEFINITION. The state of the block: the 11 registers of spec/10_state.md R10, the two emission logs (an observation the
model keeps, R16), and the events the environment has offered and the block has not yet taken (the model's own, R7, R16).
-/
namespace Sys2Proof.Machine

/-- An event at an input port of the block (R16). `timer 0` is the `tick` event; `timer low` with `low` not 0 is a
dispatch word with `k == 0` and `DW[11:0] = low`, which R60 reserves: it is "not an event of the block" and the
dispatcher refuses it. -/
inductive Event where
  /-- The `reset` port (R150). -/
  | reset
  /-- A word with `k == 0` offered to the dispatcher: `DW[12] = 0`, `DW[11:0] = low` (R57). -/
  | timer (low : BitVec 12)
  /-- Byte `b` arrived on link `l` (R90). -/
  | rx (l : Link) (b : Byte)
  deriving DecidableEq, Repr

/-- A packet cursor (R10, R14, R15). -/
structure Cursor where
  /-- `CUR[l].state`, 3 bits. -/
  state : StateCode
  /-- `CUR[l].remaining`, 9 bits. -/
  remaining : Remaining
  deriving DecidableEq, Repr

/-- The whole state. Access goes through `State.th`, `State.out`, `State.cur`, `State.txlog` and their setters in
Machine/Ops.lean. -/
structure State where
  /-- `TH[RED]` (R11). -/
  thRed : Byte
  /-- `TH[GREEN]` (R11). -/
  thGreen : Byte
  /-- `TH[BLUE]` (R11). -/
  thBlue : Byte
  /-- `CNT` (R12). -/
  cnt : Count
  /-- `OUT[RED]`: `true` is asserted (R13). -/
  outRed : Bool
  /-- `OUT[GREEN]` (R13). -/
  outGreen : Bool
  /-- `OUT[BLUE]` (R13). -/
  outBlue : Bool
  /-- `CUR[USB]` (R14, R15). -/
  curUsb : Cursor
  /-- `CUR[PIN]` (R14, R15). -/
  curPin : Cursor
  /-- `TXLOG[USB]`: the bytes emitted on `tx[USB]` since reset, oldest first (R16, R122). -/
  txUsb : List Byte
  /-- `TXLOG[PIN]` (R16, R122). -/
  txPin : List Byte
  /-- The model's own: the events still to come, the next one first. No register of the block (R16, R23). -/
  input : List Event
  deriving DecidableEq, Repr

/-- The faults of the block: NONE, so the type has no constructor. R130: "The block raises no synchronous exception" and
"No operation can fault". Nobody raises one; that is neither safe nor unsafe beyond what the rule says. -/
inductive Fault where
  deriving DecidableEq, Repr

/-- Why the dispatcher gives an input no meaning. -/
inductive Refusal where
  /-- An operation whose meaning is not written. Raised by no arm of `exec`: all have theirs. Safe. -/
  | notModelled (mnemonic : String)
  /-- A dispatch word with `k == 0` and `DW[11:0]` not 0, raised by the dispatcher (Machine/Fetch.lean). R60: "not an event
  of the block; a dispatcher must refuse it, not treat it as `TICK`". Safe. -/
  | reservedDispatchWord (w : DispatchWord)
  deriving DecidableEq, Repr

/-- The state after `RESET` (R24, R150), with no event offered. -/
def State.reset : State where
  thRed := 0
  thGreen := 0
  thBlue := 0
  cnt := 0
  outRed := false
  outGreen := false
  outBlue := false
  curUsb := ⟨0, 0⟩
  curPin := ⟨0, 0⟩
  txUsb := []
  txPin := []
  input := []

end Sys2Proof.Machine
end

