-- ==== Sys2Proof/Machine/Flags.lean ====
section
/-!
DEFINITION. The block has no flags or condition codes (spec/10_state.md R17); the "flags written" of its rules are the
output bits `OUT[c]`, and this file holds how each is computed (spec/40_pwm_engine.md R72 to R76).
-/
namespace Sys2Proof.Machine

/-- One channel's output after a period start: asserted when its threshold is not 0, else left as it is (R72). -/
def outAtPeriodStart (t : Byte) (old : Bool) : Bool :=
  if t ≠ 0 then true else old

/-- One channel's output after its match: deasserted, but for a threshold of at least `P`, which leaves it (R73 to R75). -/
def outAtMatch (t : Byte) (old : Bool) : Bool :=
  if Config.period ≤ t.toNat then old else false

/-- Whether the tick to counter value `n` generates the match of a channel with threshold `t` (R76; decision D7). -/
def matchFires (z : ZeroMatchPolicy) (n : Count) (t : Byte) : Bool :=
  match z with
  | .suppressed => decide (t ≠ 0) && decide (n.val = t.toNat)
  | .fires => decide (n.val = t.toNat)

end Sys2Proof.Machine
end

