-- ==== Sys2Proof/Decode.lean ====
section
/-!
DEFINITION. The numeric codes (spec/30_encoding.md R53 to R55), the dispatch word (R57), the decoder from it (R58, R60) and
the encoder to it. All of it is the spec's own notation (decisions D3, D14): it stands on no wire and in no register.
-/
namespace Sys2Proof

/-! ### Numeric codes -/

/-- Channel codes: RED 0, GREEN 1, BLUE 2 (R53). -/
def Channel.code : Channel → BitVec 2
  | .red => 0
  | .green => 1
  | .blue => 2

/-- The channel of a code; code 3 "is not a channel" and is refused (R53, R60). -/
def Channel.ofCode (c : BitVec 2) : Option Channel :=
  if c = 0 then some .red else if c = 1 then some .green else if c = 2 then some .blue else none

/-- Link codes: USB 0, PIN 1 (R54). -/
def Link.code : Link → BitVec 1
  | .usb => 0
  | .pin => 1

/-- The link of a code (R54). -/
def Link.ofCode (c : BitVec 1) : Link :=
  if c = 0 then .usb else .pin

/-- `AWAIT_LENGTH` = 0 (R55). -/
def StateCode.awaitLength : StateCode := 0
/-- `RED` = 1 (R55). -/
def StateCode.red : StateCode := 1
/-- `GREEN` = 2 (R55). -/
def StateCode.green : StateCode := 2
/-- `BLUE` = 3 (R55). -/
def StateCode.blue : StateCode := 3
/-- `PASSTHROUGH` = 4 (R55). -/
def StateCode.passthrough : StateCode := 4

/-! ### The dispatch word and its fields -/

/-- `DW[12]`, the field `k`: 0 timer event, 1 receive event (R57). -/
def dwKind (w : DispatchWord) : BitVec 1 := w.extractLsb' 12 1
/-- `DW[11]`, the field `link` (R57). -/
def dwLink (w : DispatchWord) : BitVec 1 := w.extractLsb' 11 1
/-- `DW[10:8]`, the field `st` (R57). -/
def dwState (w : DispatchWord) : StateCode := w.extractLsb' 8 3
/-- `DW[7:0]`, the field `b` (R57). -/
def dwByte (w : DispatchWord) : Byte := w.extractLsb' 0 8
/-- `DW[11:0]`, everything below `k`. -/
def dwLow (w : DispatchWord) : BitVec 12 := w.extractLsb' 0 12

/-- The dispatch word of `RX(l, b)` when the receiving cursor's state is `st`: `{1, l, st, b}` (R57). -/
def receiveWord (l : Link) (st : StateCode) (b : Byte) : DispatchWord :=
  (1 : BitVec 1) ++ l.code ++ st ++ b

/-- The word with `k == 0` and `DW[11:0] = low`; `timerWord 0` is the dispatch word of `TICK` (R57). -/
def timerWord (low : BitVec 12) : DispatchWord :=
  (0 : BitVec 1) ++ low

/-! ### Selection by match and mask (R58) -/

/-- One row of the selection table: `mask` and `pat` are the row's mask and match. -/
structure OpRow where
  mask : DispatchWord
  pat : DispatchWord
  deriving DecidableEq, Repr

/-- A row selects a word when `(DW & mask) == match` (R58). -/
def OpRow.selects (r : OpRow) (w : DispatchWord) : Bool :=
  w &&& r.mask == r.pat

/-- Row `TICK`. -/
def rowTick : OpRow := ⟨0x1FFF, 0x0000⟩
/-- Row `RX.LEN`. -/
def rowLen : OpRow := ⟨0x1700, 0x1000⟩
/-- Row `RX.RED`. -/
def rowRed : OpRow := ⟨0x1700, 0x1100⟩
/-- Row `RX.GREEN`. -/
def rowGreen : OpRow := ⟨0x1700, 0x1200⟩
/-- Row `RX.BLUE`. -/
def rowBlue : OpRow := ⟨0x1700, 0x1300⟩
/-- Row `RX.PASS`. -/
def rowPass : OpRow := ⟨0x1700, 0x1400⟩
/-- Row `RX.NOP`, state code 5. -/
def rowNop5 : OpRow := ⟨0x1700, 0x1500⟩
/-- Row `RX.NOP`, state codes 6 and 7. -/
def rowNop67 : OpRow := ⟨0x1600, 0x1600⟩
/-- Row `EMIT`: a receive event with state code 0 or 4, the two operations that can emit (R59). -/
def rowEmit : OpRow := ⟨0x1300, 0x1000⟩

/-- The eight rows of R58, in its order: the operations an event selects. -/
def selectionTable : List OpRow :=
  [rowTick, rowLen, rowRed, rowGreen, rowBlue, rowPass, rowNop5, rowNop67]

/-- The row of spec/opcode_table.json an operation stands in. A sub-operation has its parent's encoding (R59); `RESET` has
none (R57). -/
def tableRow : Instr → Option OpRow
  | .tick => some rowTick
  | .pstart _ _ _ => some rowTick
  | .matchR _ => some rowTick
  | .matchG _ => some rowTick
  | .matchB _ => some rowTick
  | .rxLen _ _ => some rowLen
  | .rxRed _ _ => some rowRed
  | .rxGreen _ _ => some rowGreen
  | .rxBlue _ _ => some rowBlue
  | .rxPass _ _ => some rowPass
  | .rxNop5 _ _ => some rowNop5
  | .rxNop67 _ _ _ => some rowNop67
  | .emit _ _ => some rowEmit
  | .reset => none

/-! ### Decoder and encoder -/

/-- Why a word is not an operation. -/
inductive DecodeError where
  /-- `k == 0` and `DW[11:0]` not 0: reserved (R60). -/
  | reservedTimerWord
  deriving DecidableEq, Repr

/-- The operation a dispatch word selects (R58). Sub-operations are never selected by a word (R59). -/
def decode (w : DispatchWord) : Except DecodeError Instr :=
  if rowTick.selects w then .ok .tick
  else if rowLen.selects w then .ok (.rxLen (Link.ofCode (dwLink w)) (dwByte w))
  else if rowRed.selects w then .ok (.rxRed (Link.ofCode (dwLink w)) (dwByte w))
  else if rowGreen.selects w then .ok (.rxGreen (Link.ofCode (dwLink w)) (dwByte w))
  else if rowBlue.selects w then .ok (.rxBlue (Link.ofCode (dwLink w)) (dwByte w))
  else if rowPass.selects w then .ok (.rxPass (Link.ofCode (dwLink w)) (dwByte w))
  else if rowNop5.selects w then .ok (.rxNop5 (Link.ofCode (dwLink w)) (dwByte w))
  else if rowNop67.selects w then
    .ok (.rxNop67 (Link.ofCode (dwLink w)) (w.extractLsb' 8 1) (dwByte w))
  else .error .reservedTimerWord

/-- The dispatch word of an operation that has one of its own (R57, R58); `none` for the sub-operations (R59) and for
`RESET` (R57). -/
def encode : Instr → Option DispatchWord
  | .tick => some (timerWord 0)
  | .pstart _ _ _ => none
  | .matchR _ => none
  | .matchG _ => none
  | .matchB _ => none
  | .rxLen l b => some (receiveWord l .awaitLength b)
  | .rxRed l b => some (receiveWord l .red b)
  | .rxGreen l b => some (receiveWord l .green b)
  | .rxBlue l b => some (receiveWord l .blue b)
  | .rxPass l b => some (receiveWord l .passthrough b)
  | .rxNop5 l b => some (receiveWord l 5 b)
  | .rxNop67 l x b => some (receiveWord l ((3 : BitVec 2) ++ x) b)
  | .emit _ _ => none
  | .reset => none

/-- The dispatch word of `nbits` bits of table word `w`; `none` when a bit above `DW[12]` is set, since no dispatch word
has one. -/
def tableDispatchWord (nbits w : Nat) : Option DispatchWord :=
  if w % 2 ^ nbits < 2 ^ 13 then some (BitVec.ofNat 13 (w % 2 ^ nbits)) else none

/-- The operation the decoder reads from a word of spec/opcode_table.json, bit 0 being `DW[0]`. A sub-operation's row holds
its parent's word, and the parent is what is read (R59). -/
def decodeTableWord (nbits w : Nat) : Option Instr :=
  match tableDispatchWord nbits w with
  | none => none
  | some dw =>
    match decode dw with
    | .ok i => some i
    | .error _ => none

end Sys2Proof
end

