-- ==== Sys2Proof/Machine/Operands.lean ====
section
/-!
DEFINITION. Every operand the block computes: the next counter value (spec/40_pwm_engine.md R71, R81) and the decoder's
three expressions `b + 1`, `b - 3`, `remaining - 1` with their tests (spec/41_link_decoder.md R105, spec/30_encoding.md
R52), and the router's `peer` (spec/42_cross_link_router.md R120).
-/
namespace Sys2Proof.Machine

/-- The counter value after `n`: one more, and 0 after 254 (R70, R71). -/
def nextCount (n : Count) : Count :=
  if n = 254 then 0 else n + 1

/-- The other link (R120). -/
def peer : Link → Link
  | .usb => .pin
  | .pin => .usb

/-- `zext_9(v)` (R6). -/
def zext9 (v : Byte) : BitVec 9 := v.setWidth 9

/-- What a length byte loads into `remaining`: `zext_9(b) + 1` (R92). -/
def loadedRemaining (b : Byte) : Remaining := zext9 b + 1

/-- The test `remaining >= 6` of the loaded value: the branch of the derived header (R52, R92). -/
def headerIsLarge (b : Byte) : Bool := decide (Config.hdrMin ≤ loadedRemaining b)

/-- The header byte: `b - 3` on the large branch, else `0x00` (R52). -/
def headerByte (b : Byte) : Byte :=
  if headerIsLarge b then b - Config.hdrSub else 0

/-- The link a route names, seen from link `l`. -/
def routeLink (l : Link) : Route → Link
  | .own => l
  | .peer => peer l

/-- The link the header byte goes out on: the peer on the large branch, else the decoder's own (R52, R92, R102). -/
def headerLink (l : Link) (b : Byte) : Link :=
  routeLink l (Config.hdrDest l (headerIsLarge b))

/-- `remaining - 1` (R105); 9-bit, so that the policy `wrap` of decision D5 wraps at `2^REM_W`. -/
def decremented (r : Remaining) : Remaining := r - 1

/-- The completion test on the value AFTER the decrement: `== 1`, "reproduce this exact off-by-one" (R95, R96). -/
def completes (r : Remaining) : Bool := r == Config.doneAt

/-- Whether a byte finds nothing left to count and is therefore dropped (R97): under `hold` when `remaining == 0`. -/
def starved (p : UnderflowPolicy) (c : Cursor) : Bool :=
  match p with
  | .hold => c.remaining == 0
  | .wrap => false

/-- The state `RX.BLUE` leaves, from the decremented counter (R95). -/
def stateAfterBlue (r : Remaining) : StateCode :=
  if completes r then .awaitLength else .passthrough

end Sys2Proof.Machine
end

