-- ==== Sys2Proof/Machine/Ops.lean ====
section
/-!
DEFINITION. The named operations over the registers and the emission logs: accessors (spec/10_state.md R10), the shared
operations of the three families, and the sub-operations an operation performs (spec/30_encoding.md R59).

TAKING AN EXCEPTION AND RETURNING FROM ONE: the block has neither (spec/60_exceptions.md R130, R136, R137: no exception, no
trap entry, nothing saved, no return operation), so there is no such operation here. It has no memory either
(spec/10_state.md R20).
-/
namespace Sys2Proof.Machine

/-! ### Registers and logs by name -/

/-- `TH[c]` (R11). -/
def State.th (s : State) : Channel → Byte
  | .red => s.thRed
  | .green => s.thGreen
  | .blue => s.thBlue

/-- `TH[c] <- v`. -/
def State.setTh (s : State) (c : Channel) (v : Byte) : State :=
  match c with
  | .red => { s with thRed := v }
  | .green => { s with thGreen := v }
  | .blue => { s with thBlue := v }

/-- `OUT[c]` (R13); the port `out[c]` "always equals `OUT[c]`" (R16). -/
def State.out (s : State) : Channel → Bool
  | .red => s.outRed
  | .green => s.outGreen
  | .blue => s.outBlue

/-- `OUT[c] <- v`. -/
def State.setOut (s : State) (c : Channel) (v : Bool) : State :=
  match c with
  | .red => { s with outRed := v }
  | .green => { s with outGreen := v }
  | .blue => { s with outBlue := v }

/-- `CUR[l]` (R14, R15). -/
def State.cur (s : State) : Link → Cursor
  | .usb => s.curUsb
  | .pin => s.curPin

/-- `CUR[l].state <- c.state; CUR[l].remaining <- c.remaining`. -/
def State.setCur (s : State) (l : Link) (c : Cursor) : State :=
  match l with
  | .usb => { s with curUsb := c }
  | .pin => { s with curPin := c }

/-- `TXLOG[l]` (R16). -/
def State.txlog (s : State) : Link → List Byte
  | .usb => s.txUsb
  | .pin => s.txPin

/-- `TX(l, v)`: one event on port `tx[l]` carrying `v`, appended to `TXLOG[l]` (R122). The sink always accepts (decision
D11). -/
def State.transmit (s : State) (l : Link) (v : Byte) : State :=
  match l with
  | .usb => { s with txUsb := s.txUsb ++ [v] }
  | .pin => { s with txPin := s.txPin ++ [v] }

/-- The same registers and logs, with other events still to come. -/
def State.withInput (s : State) (es : List Event) : State := { s with input := es }

/-- `CNT <- n`. -/
def State.setCnt (s : State) (n : Count) : State := { s with cnt := n }

/-! ### PWM engine -/

/-- `PSTART(t)` on all three channels (R72). -/
def State.periodStart (s : State) (tr tg tb : Byte) : State :=
  ((s.setOut .red (outAtPeriodStart tr s.outRed)).setOut .green (outAtPeriodStart tg s.outGreen)).setOut .blue
    (outAtPeriodStart tb s.outBlue)

/-- `MATCH(c, t)` (R73 to R75). -/
def State.matchChannel (s : State) (c : Channel) (t : Byte) : State :=
  s.setOut c (outAtMatch t (s.out c))

/-- `MATCH(c, t)` if the tick to counter value `n` generates it (R70, R76). -/
def State.matchIfReached (s : State) (z : ZeroMatchPolicy) (n : Count) (c : Channel) (t : Byte) : State :=
  if matchFires z n t then s.matchChannel c t else s

/-- One tick (R70): the counter advances, then `PSTART` and the matches in the order written, with each threshold read once
before any of them (decision D8). -/
def State.tickWith (s : State) (z : ZeroMatchPolicy) : State :=
  let n := nextCount s.cnt
  let advanced := s.setCnt n
  let started := if n = 0 then advanced.periodStart s.thRed s.thGreen s.thBlue else advanced
  ((started.matchIfReached z n .red s.thRed).matchIfReached z n .green s.thGreen).matchIfReached z n .blue s.thBlue

/-! ### Link decoder -/

/-- A length byte (R92): load the cursor, then emit the one header byte. -/
def State.takeLength (s : State) (l : Link) (b : Byte) : State :=
  (s.setCur l ⟨.red, loadedRemaining b⟩).transmit (headerLink l b) (headerByte b)

/-- A duty byte for channel `c` (R93 to R95): unless starved (R97), store it, count it, and go to the state `after` gives
for the decremented counter. -/
def State.takeDuty (s : State) (p : UnderflowPolicy) (c : Channel) (after : Remaining → StateCode) (l : Link) (b : Byte) :
    State :=
  if starved p (s.cur l) then s
  else
    let r := decremented (s.cur l).remaining
    (s.setTh c b).setCur l ⟨after r, r⟩

/-- A payload byte (R96): unless starved (R97), count it; the completing byte is discarded, any other is relayed. -/
def State.takePayload (s : State) (p : UnderflowPolicy) (l : Link) (b : Byte) : State :=
  if starved p (s.cur l) then s
  else
    let r := decremented (s.cur l).remaining
    if completes r then s.setCur l ⟨.awaitLength, r⟩
    else (s.setCur l { s.cur l with remaining := r }).transmit (peer l) b

/-! ### Reset -/

/-- `RESET` writes every register and empties both logs (R150); the events still to come are the environment's and stay. -/
def State.resetRegisters (s : State) : State := State.reset.withInput s.input

/-! ### Sub-operations -/

/-- The sub-operations that operation `i` performs in state `s`, in order, with their operands (R56, R59, R121): what the
`condition` entries of spec/opcode_table.json say. -/
def subOperations (i : Instr) (s : State) : List Instr :=
  match i with
  | .tick =>
    let n := nextCount s.cnt
    (if n = 0 then [.pstart s.thRed s.thGreen s.thBlue] else []) ++
      (if matchFires Config.zeroMatch n s.thRed then [.matchR s.thRed] else []) ++
      (if matchFires Config.zeroMatch n s.thGreen then [.matchG s.thGreen] else []) ++
      (if matchFires Config.zeroMatch n s.thBlue then [.matchB s.thBlue] else [])
  | .rxLen l b => [.emit (headerLink l b) (headerByte b)]
  | .rxPass l b =>
    if starved Config.underflow (s.cur l) || completes (decremented (s.cur l).remaining) then []
    else [.emit (peer l) b]
  | .pstart _ _ _ | .matchR _ | .matchG _ | .matchB _ => []
  | .rxRed _ _ | .rxGreen _ _ | .rxBlue _ _ | .rxNop5 _ _ | .rxNop67 _ _ _ => []
  | .emit _ _ | .reset => []

end Sys2Proof.Machine
end

