-- ==== Sys2Proof/Machine/Decoder.lean ====
section
/-!
DEFINITION. The meanings of the link decoder's operations (spec/41_link_decoder.md). The cursor's state selected the
operation (R90) and is not tested again here; all are total (R130).
-/
namespace Sys2Proof.Machine

/-- `RX.LEN` (R92). -/
def execRxLen (l : Link) (b : Byte) (s : State) : Host.Outcome State Fault Refusal :=
  .next (s.takeLength l b)

/-- `RX.RED` (R93). -/
def execRxRed (l : Link) (b : Byte) (s : State) : Host.Outcome State Fault Refusal :=
  .next (s.takeDuty Config.underflow .red (fun _ => .green) l b)

/-- `RX.GREEN` (R94). -/
def execRxGreen (l : Link) (b : Byte) (s : State) : Host.Outcome State Fault Refusal :=
  .next (s.takeDuty Config.underflow .green (fun _ => .blue) l b)

/-- `RX.BLUE` (R95). -/
def execRxBlue (l : Link) (b : Byte) (s : State) : Host.Outcome State Fault Refusal :=
  .next (s.takeDuty Config.underflow .blue stateAfterBlue l b)

/-- `RX.PASS` (R96). -/
def execRxPass (l : Link) (b : Byte) (s : State) : Host.Outcome State Fault Refusal :=
  .next (s.takePayload Config.underflow l b)

/-- `RX.NOP` with state code 5: link and byte are ignored (R98, decision D6). -/
def execRxNop5 (_ : Link) (_ : Byte) (s : State) : Host.Outcome State Fault Refusal :=
  .next s

/-- `RX.NOP` with state code 6 or 7 (R98, decision D6). -/
def execRxNop67 (_ : Link) (_ : BitVec 1) (_ : Byte) (s : State) : Host.Outcome State Fault Refusal :=
  .next s

end Sys2Proof.Machine
end

