-- ==== Sys2Proof/Machine/Environment.lean ====
section
/-!
DEFINITION. The meaning of the environment's operation `RESET` (spec/70_reset_and_hazards.md R150).
-/
namespace Sys2Proof.Machine

/-- `RESET` (R150). -/
def execReset (s : State) : Host.Outcome State Fault Refusal :=
  .next s.resetRegisters

end Sys2Proof.Machine
end

