-- ==== Sys2Proof/Machine/Pwm.lean ====
section
/-!
DEFINITION. The meanings of the PWM engine's operations: `TICK`, `PSTART`, `MATCH.R`, `MATCH.G`, `MATCH.B`
(spec/40_pwm_engine.md). All are total (R70, R82).
-/
namespace Sys2Proof.Machine

/-- `TICK` (R70). -/
def execTick (s : State) : Host.Outcome State Fault Refusal :=
  .next (s.tickWith Config.zeroMatch)

/-- `PSTART` with the thresholds as read by the enclosing `TICK` (R72). -/
def execPstart (tr tg tb : Byte) (s : State) : Host.Outcome State Fault Refusal :=
  .next (s.periodStart tr tg tb)

/-- `MATCH.R` (R73). -/
def execMatchR (t : Byte) (s : State) : Host.Outcome State Fault Refusal :=
  .next (s.matchChannel .red t)

/-- `MATCH.G` (R74). -/
def execMatchG (t : Byte) (s : State) : Host.Outcome State Fault Refusal :=
  .next (s.matchChannel .green t)

/-- `MATCH.B` (R75). -/
def execMatchB (t : Byte) (s : State) : Host.Outcome State Fault Refusal :=
  .next (s.matchChannel .blue t)

end Sys2Proof.Machine
end

