-- ==== Sys2Proof/Machine/Router.lean ====
section
/-!
DEFINITION. The meaning of the cross-link router's operation `EMIT` (spec/42_cross_link_router.md R122); its function `peer`
(R120) is in Operands.lean. The router keeps no state and changes no byte (R123).
-/
namespace Sys2Proof.Machine

/-- `EMIT`: byte `v` goes out on link `l` (R122). -/
def execEmit (l : Link) (v : Byte) (s : State) : Host.Outcome State Fault Refusal :=
  .next (s.transmit l v)

end Sys2Proof.Machine
end

