-- ==== Sys2Proof/Machine/Dispatch.lean ====
section
/-!
DEFINITION. One arm per operation of the block, each a direct call of its meaning.
-/
namespace Sys2Proof.Machine

def exec (i : Instr) (s : State) : Host.Outcome State Fault Refusal :=
  match i with
  | .tick => Sys2Proof.Machine.execTick s
  | .pstart tr tg tb => Sys2Proof.Machine.execPstart tr tg tb s
  | .matchR t => Sys2Proof.Machine.execMatchR t s
  | .matchG t => Sys2Proof.Machine.execMatchG t s
  | .matchB t => Sys2Proof.Machine.execMatchB t s
  | .rxLen l b => Sys2Proof.Machine.execRxLen l b s
  | .rxRed l b => Sys2Proof.Machine.execRxRed l b s
  | .rxGreen l b => Sys2Proof.Machine.execRxGreen l b s
  | .rxBlue l b => Sys2Proof.Machine.execRxBlue l b s
  | .rxPass l b => Sys2Proof.Machine.execRxPass l b s
  | .rxNop5 l b => Sys2Proof.Machine.execRxNop5 l b s
  | .rxNop67 l x b => Sys2Proof.Machine.execRxNop67 l x b s
  | .emit l v => Sys2Proof.Machine.execEmit l v s
  | .reset => Sys2Proof.Machine.execReset s

end Sys2Proof.Machine
end

