-- ==== Sys2Proof/Machine/Fetch.lean ====
section
/-!
DEFINITION. How an event selects its operation (spec/30_encoding.md R56 to R58, spec/41_link_decoder.md R90): the block
fetches no instructions (R14, R45); its dispatcher forms the dispatch word of the event from the receiving cursor's state
and decodes it.
-/
namespace Sys2Proof.Machine

/-- The dispatch word of an event in state `s` (R57); `RESET` has none. -/
def eventWord (s : State) : Event → Option DispatchWord
  | .reset => none
  | .timer low => some (timerWord low)
  | .rx l b => some (receiveWord l (s.cur l).state b)

/-- The operation an event selects in state `s`: `RESET` from its own port, any other by its dispatch word (R56, R58);
a reserved word is refused by name (R60). -/
def selectOperation (s : State) (e : Event) : Except Refusal Instr :=
  match eventWord s e with
  | none => .ok .reset
  | some w =>
    match decode w with
    | .ok i => .ok i
    | .error .reservedTimerWord => .error (.reservedDispatchWord w)

/-- Offers the event whose dispatch word is `w` as the next one. A receive word needs its `st` field to be the receiving
cursor's state (R57), so that state is written too; nothing else is. -/
def State.offerWord (s : State) (w : DispatchWord) : State :=
  if dwKind w = 1 then
    let l := Link.ofCode (dwLink w)
    (s.setCur l { s.cur l with state := dwState w }).withInput (.rx l (dwByte w) :: s.input)
  else s.withInput (.timer (dwLow w) :: s.input)

/-- Offers a table word; one that has a bit above `DW[12]` spells no event, and a reserved word stands for it, so that the
next step refuses it. -/
def State.offerTableWord (s : State) (nbits w : Nat) : State :=
  match tableDispatchWord nbits w with
  | some dw => s.offerWord dw
  | none => s.offerWord (timerWord 0xFFF)

end Sys2Proof.Machine
end

