-- ==== Sys2Proof/Machine/Step.lean ====
section
/-!
DEFINITION. One step of the block: one event, taken whole (spec/00_scope.md R7, spec/20_memory.md R36).
-/
namespace Sys2Proof.Machine

/-- The block takes the next event, selects its operation in the state before the step, and performs it; the event is
consumed (R90). With no event "nothing in the block changes" (spec/60_exceptions.md R144). -/
def step (s : State) : Host.Outcome State Fault Refusal :=
  match s.input with
  | [] => .next s
  | e :: rest =>
    match selectOperation s e with
    | .ok i => exec i (s.withInput rest)
    | .error r => .refused r

/-- `s` with the operation of table word `w` as the very next one: its event is offered first, and the receiving cursor is
in the state the word's `st` field names. -/
def State.withFetchWord (s : State) (nbits w : Nat) : State :=
  s.offerTableWord nbits w

end Sys2Proof.Machine
end

