-- ==== Sys2Proof/WellFormed.lean ====
section
/-!
DEFINITION. The checks on operations, events and packets. Nothing is refused for failing one except a reserved timer word
(spec/30_encoding.md R60): they say what the spec's rules can produce or what a sender should send.
-/
namespace Sys2Proof

/-- An operation as the spec can select it: a match is generated only for a threshold that is not 0 (R56, R76). A threshold
of 255 is kept: it generates no match either, but `MATCH(c)` keeps its guard for it (R73). -/
def Instr.wf : Instr → Bool
  | .tick => true
  | .pstart _ _ _ => true
  | .matchR t => t != 0
  | .matchG t => t != 0
  | .matchB t => t != 0
  | .rxLen _ _ => true
  | .rxRed _ _ => true
  | .rxGreen _ _ => true
  | .rxBlue _ _ => true
  | .rxPass _ _ => true
  | .rxNop5 _ _ => true
  | .rxNop67 _ _ _ => true
  | .emit _ _ => true
  | .reset => true

/-- An event of the block: a timer word is one only when it is `TICK`'s (R57, R60). -/
def Machine.Event.wf : Machine.Event → Bool
  | .reset => true
  | .timer low => low == 0
  | .rx _ _ => true

/-- A packet as its sender lays it out (R50): the declared length, the three duties, and every byte after them, the last,
discarded one included. -/
structure Packet where
  /-- `L`, byte 0. -/
  length : Byte
  red : Byte
  green : Byte
  blue : Byte
  /-- Bytes 4 to `L`. -/
  rest : List Byte
  deriving DecidableEq, Repr

/-- A well-formed packet: `L >= 3` and `L + 1` bytes in all (R50, R62, R145). -/
def Packet.wf (p : Packet) : Bool :=
  decide (3 ≤ p.length.toNat) && p.rest.length + 3 == p.length.toNat

/-- The packet's bytes in the order they are sent (R50). -/
def Packet.bytes (p : Packet) : List Byte :=
  p.length :: p.red :: p.green :: p.blue :: p.rest

end Sys2Proof
end

