-- ==== Sys2Proof/Machine/Stimulus.lean ====
section
/-!
DEFINITION. The stimulus script of spec/30_encoding.md R62 (decision D15): its lines and pseudo-operations as the events they
stand for. Its text form is notation and is not modelled.
-/
namespace Sys2Proof.Machine

/-- The `tick` event (R16): the timer word of `TICK`. -/
def tickEvent : Event := .timer 0

/-- Bytes arriving on link `l`, in order (R37). -/
def receive (l : Link) (bytes : List Byte) : List Event := bytes.map (Event.rx l)

/-- A line of a stimulus script (R62); a comment is no line. -/
inductive ScriptLine where
  /-- `reset` -/
  | reset
  /-- `tick n`; the line `tick` is `tick 1`. -/
  | tick (n : Nat)
  /-- `rx U xx`, `rx P xx` -/
  | rx (l : Link) (b : Byte)
  /-- `period`: `tick 255` -/
  | period
  /-- `pkt U L r g b p1 ... pk`, `pkt P ...` -/
  | pkt (l : Link) (p : Packet)
  deriving DecidableEq, Repr

/-- The events a line stands for (R62). -/
def ScriptLine.events : ScriptLine → List Event
  | .reset => [.reset]
  | .tick n => List.replicate n tickEvent
  | .rx l b => [.rx l b]
  | .period => List.replicate Config.period tickEvent
  | .pkt l p => receive l p.bytes

/-- The events of a script, "executed top to bottom" (R62). -/
def scriptEvents (lines : List ScriptLine) : List Event := lines.flatMap ScriptLine.events

end Sys2Proof.Machine
end

