-- ==== Sys2Proof/Safety.lean ====
section
/-!
DEFINITION. The terms claims are made in: runs, what can be observed, the invariants of every reachable state, and what it
is for a link to be stalled.
-/
namespace Sys2Proof.Machine

/-- A finite run of the block: it takes the events of `es`, one step each, from the registers of `s` (R7, R38). Every interleaving of
the three agents' events is some list `es`. -/
def runEvents (es : List Event) (s : State) : Host.Outcome State Fault Refusal :=
  Host.Core.run Sys2Proof.core es.length (s.withInput es)

/-- `σ` is the infinite run of the block on the events `es` (R7): from the reset state, step `n` takes the event `es n`. A
finite run is a `runEvents`. -/
def InfiniteRun (es : Nat → Event) (σ : Nat → State) : Prop :=
  σ 0 = State.reset ∧ ∀ n, step ((σ n).withInput [es n]) = .next (σ (n + 1))

/-- Operations performed one after the other (the sub-operations of a step run "in the order written", R70). -/
def runOperations : List Instr → State → Host.Outcome State Fault Refusal
  | [], s => .next s
  | i :: is, s =>
    match exec i s with
    | .next t => runOperations is t
    | .fault r => .fault r
    | .refused r => .refused r

/-- What the environment can observe (R8): the three outputs and the two emitted sequences. -/
structure Observation where
  outRed : Bool
  outGreen : Bool
  outBlue : Bool
  txUsb : List Byte
  txPin : List Byte
  deriving DecidableEq, Repr

/-- The observation of a state: port `out[c]` equals `OUT[c]`, and `TXLOG[l]` holds the events of `tx[l]` (R8, R16). -/
def observe (s : State) : Observation where
  outRed := s.out .red
  outGreen := s.out .green
  outBlue := s.out .blue
  txUsb := s.txlog .usb
  txPin := s.txlog .pin

/-- What R25 says of one cursor in every reachable state. -/
def Cursor.legal (c : Cursor) : Bool :=
  decide (c.state.toNat ≤ 4) && decide (c.remaining.toNat ≤ 256) &&
    (c.state != StateCode.awaitLength || c.remaining == 0 || c.remaining == 1) &&
    (c.state != StateCode.red || decide (1 ≤ c.remaining.toNat)) &&
    (c.state != StateCode.passthrough || c.remaining == 0 || decide (2 ≤ c.remaining.toNat))

/-- What R25 says of every reachable state; `CNT <= 254` holds by type (R12). -/
def State.legal (s : State) : Bool := s.curUsb.legal && s.curPin.legal

/-- A cursor that no byte can move (R97, R98; the glossary's "stall"): outside `AWAIT_LENGTH` with nothing left to count, or
in an unrecognised state. -/
def Cursor.stalled (c : Cursor) : Bool :=
  (c.state != StateCode.awaitLength && c.remaining == 0) || decide (5 ≤ c.state.toNat)

/-- The threshold that a byte received with this cursor writes (R93 to R95, R97), if it writes one. -/
def Cursor.dutyChannel (c : Cursor) : Option Channel :=
  if c.remaining = 0 then none
  else if c.state = StateCode.red then some .red
  else if c.state = StateCode.green then some .green
  else if c.state = StateCode.blue then some .blue
  else none

/-- The link that a byte `b` received on link `l` with this cursor makes the decoder emit on (R121), if it emits. -/
def Cursor.emissionLink (c : Cursor) (l : Link) (b : Byte) : Option Link :=
  if c.state = StateCode.awaitLength then some (if 5 ≤ b.toNat then peer l else l)
  else if c.state = StateCode.passthrough ∧ c.remaining ≠ 0 ∧ c.remaining ≠ 2 then some (peer l)
  else none

/-- The same event with the two links exchanged. -/
def Event.mirror : Event → Event
  | .reset => .reset
  | .timer low => .timer low
  | .rx l b => .rx (peer l) b

/-- The same state with the two links exchanged: cursors, logs and coming events (R102). -/
def State.mirror (s : State) : State :=
  { s with
    curUsb := s.curPin
    curPin := s.curUsb
    txUsb := s.txPin
    txPin := s.txUsb
    input := s.input.map Event.mirror }

/-- The outcome with the two links exchanged. -/
def mirrorOutcome : Host.Outcome State Fault Refusal → Host.Outcome State Fault Refusal
  | .next t => .next t.mirror
  | .fault r => .fault r
  | .refused r => .refused r

/-- The bytes that a list of events brings on link `l`, in order (R37). -/
def bytesOn (l : Link) : List Event → List Byte
  | [] => []
  | .reset :: es => bytesOn l es
  | .timer _ :: es => bytesOn l es
  | .rx m b :: es => if m = l then b :: bytesOn l es else bytesOn l es

end Sys2Proof.Machine
end

