-- ==== Sys2Proof/Certificates/Slice0/Obligations.lean ====
section
/-!
DEFINITION. The statements for the provers. Each says what a numbered rule of spec/ says the block does; a docstring names
the rule and, where the spec marks the rule or a part of it as its own decision (D<n>) or derivation, says so.
-/
open Sys2Proof Sys2Proof.Machine

/-! ### Encoding and selection -/

/-- Decoding the dispatch word of any operation that has one gives that operation, every link, state code and byte (R57,
R58). -/
def Obligations.DecodeOfEncodeGivesOperation : Prop :=
  ∀ (i : Instr) (w : DispatchWord), encode i = some w → decode w = .ok i

/-- The word an operation was decoded from is the word it encodes to: no word is a second spelling (R57, R58). -/
def Obligations.EncodeOfDecodeGivesWord : Prop :=
  ∀ (w : DispatchWord) (i : Instr), decode w = .ok i → encode i = some w

/-- The rows of R58 are disjoint and cover every word with `k == 1`, and the decoder reads the operation of the one row that
selects the word. -/
def Obligations.OneTableRowSelectsEachReceiveWord : Prop :=
  ∀ w : DispatchWord, dwKind w = 1 →
    ∃ (r : OpRow) (i : Instr), selectionTable.filter (fun q => q.selects w) = [r] ∧ decode w = .ok i ∧ tableRow i = some r

/-- The decoder refuses the words with `k == 0` and a lower bit set, and no others (R60, second row). -/
def Obligations.DecodeRefusesExactlyReservedTimerWords : Prop :=
  ∀ w : DispatchWord, decode w = .error .reservedTimerWord ↔ dwKind w = 0 ∧ dwLow w ≠ 0

/-- Words written out from R57's fields, as spec/95_test_vectors.md lists them. -/
def Obligations.WrittenOutWordsDecode : Prop :=
  decode 0x0000 = .ok .tick ∧ decode 0x1005 = .ok (.rxLen .usb 0x05) ∧ decode 0x1940 = .ok (.rxRed .pin 0x40) ∧
    decode 0x1241 = .ok (.rxGreen .usb 0x41) ∧ decode 0x1342 = .ok (.rxBlue .usb 0x42) ∧
    decode 0x1CA4 = .ok (.rxPass .pin 0xA4) ∧ decode 0x1500 = .ok (.rxNop5 .usb 0x00) ∧
    decode 0x1E99 = .ok (.rxNop67 .pin 0 0x99) ∧ decode 0x0001 = .error .reservedTimerWord

/-- The codes are RED 0, GREEN 1, BLUE 2 and USB 0, PIN 1; every channel and link is the one its code names, and channel
code 3 names none (R53, R54, R60; decision D3). -/
def Obligations.CodesNameChannelsAndLinks : Prop :=
  Channel.red.code = 0 ∧ Channel.green.code = 1 ∧ Channel.blue.code = 2 ∧ Link.usb.code = 0 ∧ Link.pin.code = 1 ∧
    (∀ c : Channel, Channel.ofCode c.code = some c) ∧ Channel.ofCode 3 = none ∧ (∀ l : Link, Link.ofCode l.code = l)

/-- `peer` exchanges the two links, and on codes it is `1 - l` (R120). -/
def Obligations.PeerExchangesTheTwoLinks : Prop :=
  peer .usb = .pin ∧ peer .pin = .usb ∧ ∀ l : Link, (peer l).code = 1 - l.code

/-- The script's pseudo-operations are their expansions (R62; decision D15). -/
def Obligations.ScriptLinesExpand : Prop :=
  ScriptLine.period.events = (ScriptLine.tick 255).events ∧
    ∀ (l : Link) (p : Packet), (ScriptLine.pkt l p).events =
      scriptEvents ([p.length, p.red, p.green, p.blue].map (ScriptLine.rx l) ++ p.rest.map (ScriptLine.rx l))

/-! ### Steps -/

/-- A step consumes the next event and performs the operation its dispatch word decodes to, chosen in the state before the
step; the reset port performs `RESET`; the `tick` event performs `TICK` (R56 to R58). -/
def Obligations.StepRunsDecodedOperation : Prop :=
  ∀ (s : State) (rest : List Event),
    (∀ (e : Event) (w : DispatchWord) (i : Instr), s.input = e :: rest → eventWord s e = some w → decode w = .ok i →
      step s = exec i (s.withInput rest)) ∧
    (s.input = .reset :: rest → step s = exec .reset (s.withInput rest)) ∧
    (s.input = tickEvent :: rest → step s = exec .tick (s.withInput rest))

/-- A byte performs exactly the operation the receiving cursor's state names, whatever the byte's value, and is consumed
(R90). -/
def Obligations.ReceivedByteRunsOperationOfCursorState : Prop :=
  ∀ (s : State) (l : Link) (b : Byte) (rest : List Event), s.input = .rx l b :: rest →
    step s = exec
      (if (s.cur l).state = 0 then .rxLen l b
        else if (s.cur l).state = 1 then .rxRed l b
        else if (s.cur l).state = 2 then .rxGreen l b
        else if (s.cur l).state = 3 then .rxBlue l b
        else if (s.cur l).state = 4 then .rxPass l b
        else if (s.cur l).state = 5 then .rxNop5 l b
        else .rxNop67 l ((s.cur l).state.extractLsb' 0 1) b)
      (s.withInput rest)

/-- A reserved timer word is refused by name, and is not taken as a tick (R60, second row). -/
def Obligations.ReservedTimerWordIsRefused : Prop :=
  ∀ (s : State) (low : BitVec 12) (rest : List Event), s.input = .timer low :: rest → low ≠ 0 →
    step s = .refused (.reservedDispatchWord (timerWord low))

/-- Between events nothing in the block changes (R144); that a step with no event offered is such a moment is the model's
choice (log entry 2). -/
def Obligations.IdleBlockKeepsItsState : Prop :=
  ∀ s : State, s.input = [] → step s = .next s

/-- No operation faults or is refused, in any state (R130); and a step that has an event of the block to take goes on and
consumes it (R90 of a byte). That a step with no event to take goes on too is the model's choice (log entry 2), and so is the
list of coming events (log entry 1). -/
def Obligations.NoOperationFaults : Prop :=
  (∀ (i : Instr) (s : State), ∃ t, exec i s = .next t) ∧
    ∀ s : State, (∀ e ∈ s.input.head?, e.wf = true) → ∃ t, step s = .next t ∧ t.input = s.input.tail

/-- Every sequence of events of the block runs to its end, from every state: nothing waits and nothing hangs (R171, a
derivation of the spec). -/
def Obligations.EveryEventSequenceCompletes : Prop :=
  ∀ (es : List Event) (s : State), (∀ e ∈ es, e.wf = true) → ∃ t, runEvents es s = .next t ∧ t.input = []

/-- Every infinite sequence of events of the block has exactly one infinite run from reset; its state after `n` events is the
one the finite run of the first `n` gives, and satisfies the invariants of R25 (R7, R171; R25 and R171 are derivations of the
spec; that no event is left over is about the model's list, log entry 1). -/
def Obligations.InfiniteEventSequenceHasOneRun : Prop :=
  ∀ es : Nat → Event, (∀ n, (es n).wf = true) →
    ∃ σ : Nat → State, InfiniteRun es σ ∧ (∀ τ, InfiniteRun es τ → τ = σ) ∧
      ∀ n, runEvents ((List.range n).map es) State.reset = .next (σ n) ∧ (σ n).legal = true ∧ (σ n).input = []

/-- A table word placed as the next one is what the next step runs, on the same thresholds, counter, outputs, counts and
logs (R57; how a word is placed is the model's, log entry 1). -/
def Obligations.PlacedTableWordRunsNext : Prop :=
  ∀ (s : State) (nbits w : Nat) (i : Instr), decodeTableWord nbits w = some i →
    ∃ u : State, step (s.withFetchWord nbits w) = exec i u ∧ u.input = s.input ∧ u.cnt = s.cnt ∧
      (∀ c, u.th c = s.th c ∧ u.out c = s.out c) ∧
      ∀ l, (u.cur l).remaining = (s.cur l).remaining ∧ u.txlog l = s.txlog l

/-! ### PWM engine -/

/-- `TICK` completes in every state: the counter advances, 0 after 254; at the new value 0 every channel with a nonzero
threshold is asserted; at a new value equal to a channel's nonzero threshold that channel is deasserted; every other output
and every other register keeps its value (R70; that the events of one counter value are one step is decision D8). -/
def Obligations.TickAdvancesCounterAndOutputs : Prop :=
  ∀ s : State, ∃ t, exec .tick s = .next t ∧
    t.cnt.val = (if s.cnt.val = 254 then 0 else s.cnt.val + 1) ∧
    (∀ c, t.out c = (if t.cnt.val = 0 then decide (s.th c ≠ 0) || s.out c
      else if t.cnt.val = (s.th c).toNat then false else s.out c)) ∧
    (∀ c, t.th c = s.th c) ∧ (∀ l, t.cur l = s.cur l) ∧ (∀ l, t.txlog l = s.txlog l) ∧ t.input = s.input

/-- The counter law: from any value, `n` ticks add `n` modulo 255, and no operation but `TICK` and `RESET` writes the counter
(R71). -/
def Obligations.CounterCountsModulo255 : Prop :=
  (∀ (s : State) (n : Nat), ∃ t, runEvents (List.replicate n tickEvent) s = .next t ∧ t.cnt.val = (s.cnt.val + n) % 255) ∧
    ∀ (i : Instr) (s t : State), i ≠ .tick → i ≠ .reset → exec i s = .next t → t.cnt = s.cnt

/-- `PSTART` asserts the channels whose threshold is nonzero and changes nothing else, a channel of threshold 0 included; a
tick performs it exactly when the new counter value is 0, with the thresholds as they stand (R72). After `RESET`, which does
not run it, no output is asserted (R150; that reset clears the outputs is decision D9). -/
def Obligations.PeriodStartAssertsNonzeroChannels : Prop :=
  ∀ (s : State) (tr tg tb : Byte),
    exec (.pstart tr tg tb) s = .next { s with
      outRed := decide (tr ≠ 0) || s.outRed
      outGreen := decide (tg ≠ 0) || s.outGreen
      outBlue := decide (tb ≠ 0) || s.outBlue } ∧
    (.pstart tr tg tb ∈ subOperations .tick s ↔
      s.cnt.val = 254 ∧ tr = s.thRed ∧ tg = s.thGreen ∧ tb = s.thBlue) ∧
    ∃ u, exec .reset s = .next u ∧ ∀ c, u.out c = false

/-- `MATCH.R`, `MATCH.G` and `MATCH.B` each deassert their own channel unless its threshold is at least 255, and change
nothing else; a tick performs one exactly when the threshold is not 0 and the new counter value equals it (R73, R74, R75). -/
def Obligations.MatchDeassertsOnlyItsChannel : Prop :=
  ∀ (s : State) (t : Byte),
    exec (.matchR t) s = .next (if 255 ≤ t.toNat then s else { s with outRed := false }) ∧
    exec (.matchG t) s = .next (if 255 ≤ t.toNat then s else { s with outGreen := false }) ∧
    exec (.matchB t) s = .next (if 255 ≤ t.toNat then s else { s with outBlue := false }) ∧
    (.matchR t ∈ subOperations .tick s ↔ t = s.thRed ∧ t ≠ 0 ∧ (s.cnt.val + 1) % 255 = t.toNat) ∧
    (.matchG t ∈ subOperations .tick s ↔ t = s.thGreen ∧ t ≠ 0 ∧ (s.cnt.val + 1) % 255 = t.toNat) ∧
    (.matchB t ∈ subOperations .tick s ↔ t = s.thBlue ∧ t ≠ 0 ∧ (s.cnt.val + 1) % 255 = t.toNat)

/-- A threshold of 0 or 255 produces no match, at any counter value (R140). -/
def Obligations.BoundaryThresholdsProduceNoMatch : Prop :=
  ∀ (s : State) (t : Byte),
    (.matchR t ∈ subOperations .tick s ∨ .matchG t ∈ subOperations .tick s ∨ .matchB t ∈ subOperations .tick s) →
      1 ≤ t.toNat ∧ t.toNat ≤ 254

/-- A tick is the counter's advance followed by the sub-operations it selects, in their order (R70, R59; the joining of
the timer's events into one step is decision D8). -/
def Obligations.TickPerformsItsSubOperations : Prop :=
  ∀ (s : State) (n : Count), n.val = (s.cnt.val + 1) % 255 →
    exec .tick s = runOperations (subOperations .tick s) (s.setCnt n)

/-- Steady-state duty: over a period that starts with threshold `t` in 1 to 254 and keeps it, the output is asserted at
exactly the counter values below `t` (R77, a derivation of the spec). -/
def Obligations.ChannelIsAssertedBelowItsThreshold : Prop :=
  ∀ (s : State) (c : Channel) (k : Nat), s.cnt.val = 254 → 1 ≤ (s.th c).toNat → (s.th c).toNat ≤ 254 → k < 255 →
    ∃ t, runEvents (List.replicate (k + 1) tickEvent) s = .next t ∧ t.cnt.val = k ∧ t.out c = decide (k < (s.th c).toNat)

/-- The boundary thresholds, for every step of the block: a clear output with threshold 0 stays clear; an asserted output
with threshold 255 stays asserted but for `RESET`; and a period start asserts the output of a threshold of 255 (R78, a
derivation of the spec; that a zero threshold generates no match is decision D7). -/
def Obligations.BoundaryThresholdsHoldTheirOutputs : Prop :=
  ∀ (s t : State) (c : Channel), step s = .next t →
    (s.th c = 0 → s.out c = false → t.out c = false) ∧
    (s.th c = 255 → s.out c = true → s.input.head? ≠ some .reset → t.out c = true) ∧
    (s.th c = 255 → s.cnt.val = 254 → s.input.head? = some tickEvent → t.out c = true)

/-- Closed form: that a channel's output is asserted exactly when its threshold is nonzero and above the counter is kept by
every step that leaves the threshold as it was (R79, a derivation of the spec). -/
def Obligations.ClosedFormOfOutputIsKept : Prop :=
  ∀ (s t : State) (c : Channel), s.out c = decide (s.th c ≠ 0 ∧ s.cnt.val < (s.th c).toNat) →
    step s = .next t → t.th c = s.th c → t.out c = decide (t.th c ≠ 0 ∧ t.cnt.val < (t.th c).toNat)

/-- Channel independence: two states that agree on the counter and on one channel's threshold and output agree on that
output after any number of ticks, whatever else they hold (R80, a derivation of the spec). -/
def Obligations.ChannelIgnoresOtherChannels : Prop :=
  ∀ (s u s' u' : State) (c : Channel) (n : Nat), s.cnt = u.cnt → s.th c = u.th c → s.out c = u.out c →
    runEvents (List.replicate n tickEvent) s = .next s' → runEvents (List.replicate n tickEvent) u = .next u' →
    s'.out c = u'.out c

/-- The first period after reset is dark, whatever bytes arrive in it, and the 255th tick is the first to assert an output:
it asserts exactly those with a nonzero threshold (R83, R168; the reset values are decision D9). -/
def Obligations.FirstPeriodAfterResetIsDark : Prop :=
  ∀ (es : List Event), (∀ e ∈ es, e.wf = true ∧ e ≠ .reset) →
    (es.count tickEvent < 255 → ∃ t, runEvents es State.reset = .next t ∧ ∀ c, t.out c = false) ∧
    (es.count tickEvent = 254 →
      ∃ t, runEvents (es ++ [tickEvent]) State.reset = .next t ∧ ∀ c, t.out c = decide (t.th c ≠ 0))

/-- What becomes of an output in the rest of a period, whatever threshold stands when the counter is at `v`: it is cleared
when the counter reaches a threshold still ahead, and keeps its value otherwise; the next period start asserts it if the
threshold is nonzero (R160, a derivation of the spec; its rows for the threshold 0 rest on decision D7). -/
def Obligations.OutputForRestOfPeriod : Prop :=
  ∀ (s : State) (c : Channel),
    (∀ j, s.cnt.val + j ≤ 254 → ∃ t, runEvents (List.replicate j tickEvent) s = .next t ∧
      t.out c = (if s.cnt.val < (s.th c).toNat ∧ (s.th c).toNat ≤ s.cnt.val + j then false else s.out c)) ∧
    ∃ t, runEvents (List.replicate (255 - s.cnt.val) tickEvent) s = .next t ∧ t.cnt.val = 0 ∧
      (s.th c ≠ 0 → t.out c = true) ∧ (s.th c = 0 → t.out c = s.out c)

/-- Stuck-on: an output that is asserted when its threshold is 0 stays asserted through any number of ticks (R162, a
derivation of the spec from decision D7). -/
def Obligations.AssertedOutputStaysOnAtZeroThreshold : Prop :=
  ∀ (s : State) (c : Channel) (n : Nat), s.th c = 0 → s.out c = true →
    ∃ t, runEvents (List.replicate n tickEvent) s = .next t ∧ t.out c = true

/-- The two readings of D7 give the same tick in every state where each channel of threshold 0 is already clear. At the tick to
the counter value 0 they differ on an asserted output of threshold 0: the rules' own tick leaves it asserted, and the other
reading clears it (R76, R162; spec/92_eei_decisions.md D7). -/
def Obligations.ZeroMatchPoliciesAgreeOnClearOutputs : Prop :=
  ∀ s : State,
    ((∀ c, s.th c = 0 → s.out c = false) → exec .tick s = .next (s.tickWith .fires)) ∧
    ∀ c, s.th c = 0 → s.cnt.val = 254 →
      (s.tickWith .fires).out c = false ∧ (s.out c = true → ∃ t, exec .tick s = .next t ∧ t.out c = true)

/-! ### Link decoder and router -/

/-- `RX.LEN` completes in every state: `remaining` is `b + 1` without wrap, the state is `RED`, and exactly one byte goes
out: `b - 3`, which does not borrow, to the peer when `b >= 5`, else `0x00` on the decoder's own link (R92). -/
def Obligations.LengthByteLoadsCursorAndEmitsHeader : Prop :=
  ∀ (s : State) (l : Link) (b : Byte), ∃ r : Remaining, r.toNat = b.toNat + 1 ∧
    (5 ≤ b.toNat → (b - 3).toNat = b.toNat - 3 ∧
      exec (.rxLen l b) s = .next ((s.setCur l ⟨1, r⟩).transmit (peer l) (b - 3))) ∧
    (b.toNat ≤ 4 → exec (.rxLen l b) s = .next ((s.setCur l ⟨1, r⟩).transmit l 0))

/-- `RX.RED`: with bytes left to count it stores the byte unchanged, counts it and goes to `GREEN`; with none it does
nothing (R93; the second clause is the guard of R97, decision D5). -/
def Obligations.RedByteIsStoredAndCounted : Prop :=
  ∀ (s : State) (l : Link) (b : Byte),
    exec (.rxRed l b) s = .next (if (s.cur l).remaining = 0 then s
      else (s.setTh .red b).setCur l ⟨2, (s.cur l).remaining - 1⟩)

/-- `RX.GREEN`: as `RX.RED`, to `BLUE` (R94; its guard is R97's, decision D5). -/
def Obligations.GreenByteIsStoredAndCounted : Prop :=
  ∀ (s : State) (l : Link) (b : Byte),
    exec (.rxGreen l b) s = .next (if (s.cur l).remaining = 0 then s
      else (s.setTh .green b).setCur l ⟨3, (s.cur l).remaining - 1⟩)

/-- `RX.BLUE`: as `RX.RED`, to `AWAIT_LENGTH` when the decremented count is exactly 1, else to `PASSTHROUGH` (R95; its guard
is R97's, decision D5). -/
def Obligations.BlueByteEndsPacketAtCountOne : Prop :=
  ∀ (s : State) (l : Link) (b : Byte),
    exec (.rxBlue l b) s = .next (if (s.cur l).remaining = 0 then s
      else (s.setTh .blue b).setCur l
        ⟨if (s.cur l).remaining = 2 then 0 else 4, (s.cur l).remaining - 1⟩)

/-- `RX.PASS`: the byte that leaves the count at 1 ends the packet and is discarded; any other counted byte goes out
unchanged on the peer link and the state stays; with none left to count nothing happens (R96; its guard is R97's, decision
D5). -/
def Obligations.PayloadByteIsRelayedOrEndsPacket : Prop :=
  ∀ (s : State) (l : Link) (b : Byte),
    exec (.rxPass l b) s = .next (if (s.cur l).remaining = 0 then s
      else if (s.cur l).remaining = 2 then s.setCur l ⟨0, 1⟩
      else (s.setCur l ⟨(s.cur l).state, (s.cur l).remaining - 1⟩).transmit (peer l) b)

/-- `RX.NOP`: in an unrecognised state a byte is consumed and nothing changes (R98; decision D6). -/
def Obligations.UnrecognisedStateDropsByte : Prop :=
  (∀ (s : State) (l : Link) (x : BitVec 1) (b : Byte), exec (.rxNop5 l b) s = .next s ∧ exec (.rxNop67 l x b) s = .next s) ∧
    ∀ (s : State) (l : Link) (b : Byte) (rest : List Event), s.input = .rx l b :: rest → 5 ≤ (s.cur l).state.toNat →
      step s = .next (s.withInput rest)

/-- `EMIT` completes in every state: the byte is appended to the one log it names and nothing else changes (R122; that the
sink always accepts is decision D11). -/
def Obligations.EmitAppendsToOneLog : Prop :=
  ∀ (s : State) (l : Link) (v : Byte), ∃ t, exec (.emit l v) s = .next t ∧
    t.txlog l = s.txlog l ++ [v] ∧ t.txlog (peer l) = s.txlog (peer l) ∧ t.cnt = s.cnt ∧ t.input = s.input ∧
    (∀ c, t.th c = s.th c ∧ t.out c = s.out c) ∧ ∀ m, t.cur m = s.cur m

/-- The decoders emit through the router alone: a length byte and a payload byte change the logs by the `EMIT`s they select
and by nothing else (R59, R121, R123). -/
def Obligations.DecodersEmitThroughTheRouter : Prop :=
  ∀ (s : State) (l : Link) (b : Byte),
    exec (.rxLen l b) s =
      runOperations (subOperations (.rxLen l b) s) (s.setCur l ⟨1, b.setWidth 9 + 1⟩) ∧
    ((s.cur l).remaining = 0 → subOperations (.rxPass l b) s = []) ∧
    ((s.cur l).remaining ≠ 0 → exec (.rxPass l b) s =
      runOperations (subOperations (.rxPass l b) s)
        (s.setCur l ⟨if (s.cur l).remaining = 2 then 0 else (s.cur l).state, (s.cur l).remaining - 1⟩))

/-- The transition table: the receiving cursor and the thresholds after any byte, from the cursor before it, for every state
code and count (R99, a derivation of the spec; its rows for the count 0 are decision D5, for codes 5 to 7 decision D6). -/
def Obligations.ByteFollowsTransitionTable : Prop :=
  ∀ (s t : State) (l : Link) (b : Byte) (rest : List Event) (st : StateCode) (r : Remaining),
    s.input = .rx l b :: rest → s.cur l = ⟨st, r⟩ → step s = .next t →
    t.cur l = (if st = 0 then ⟨1, b.setWidth 9 + 1⟩
      else if 5 ≤ st.toNat ∨ r = 0 then ⟨st, r⟩
      else if st = 1 then ⟨2, r - 1⟩
      else if st = 2 then ⟨3, r - 1⟩
      else if r = 2 then ⟨0, 1⟩
      else ⟨4, r - 1⟩) ∧
    t.th .red = (if st = 1 ∧ r ≠ 0 then b else s.th .red) ∧
    t.th .green = (if st = 2 ∧ r ≠ 0 then b else s.th .green) ∧
    t.th .blue = (if st = 3 ∧ r ≠ 0 then b else s.th .blue)

/-- The routing table: what each step but `RESET` appends to each log, that nothing else is ever emitted, and that a duty
byte goes to the shared threshold of its colour (R121). -/
def Obligations.EmissionsFollowRoutingTable : Prop :=
  ∀ (s t : State) (rest : List Event), step s = .next t →
    (∀ (l : Link) (b : Byte), s.input = .rx l b :: rest →
      t.txlog (peer l) = s.txlog (peer l) ++
        (if (s.cur l).state = 0 ∧ 5 ≤ b.toNat then [b - 3]
          else if (s.cur l).state = 4 ∧ (s.cur l).remaining ≠ 0 ∧ (s.cur l).remaining ≠ 2 then [b] else []) ∧
      t.txlog l = s.txlog l ++ (if (s.cur l).state = 0 ∧ b.toNat ≤ 4 then [0] else []) ∧
      ((s.cur l).remaining ≠ 0 → ((s.cur l).state = 1 → t.th .red = b) ∧ ((s.cur l).state = 2 → t.th .green = b) ∧
        ((s.cur l).state = 3 → t.th .blue = b))) ∧
    (s.input = tickEvent :: rest → ∀ m, t.txlog m = s.txlog m)

/-- What a decoder's step may touch: not the other cursor, not the counter, not an output; no threshold but the one its cursor
names, which takes the byte; no log but the one its cursor and the byte name, which grows by one byte (R91, a derivation of
the spec). -/
def Obligations.DecoderStepTouchesOnlyItsOwn : Prop :=
  ∀ (s t : State) (l : Link) (b : Byte) (rest : List Event), s.input = .rx l b :: rest → step s = .next t →
    t.cur (peer l) = s.cur (peer l) ∧ t.cnt = s.cnt ∧ (∀ c, t.out c = s.out c) ∧ t.input = rest ∧
    (∀ d, (s.cur l).dutyChannel ≠ some d → t.th d = s.th d) ∧ (∀ d, (s.cur l).dutyChannel = some d → t.th d = b) ∧
    (∀ m, (s.cur l).emissionLink l b ≠ some m → t.txlog m = s.txlog m) ∧
    ∀ m, (s.cur l).emissionLink l b = some m →
      t.txlog m = s.txlog m ++ [if (s.cur l).state = 0 then (if 5 ≤ b.toNat then b - 3 else 0) else b]

/-- The access table, as the frame of every operation: each register and log is written by the operations R30 lists for it
and by no other. A log has four writers: `RX.PASS` of the other link's decoder, `RX.LEN` of the other link's decoder when the
loaded count is at least 6, `RX.LEN` of its own link's decoder when it is below 6, and `EMIT` on it, which is how they emit
(R59). That the coming events are no operation's to write is the model's (log entries 1 and 21). -/
def Obligations.OperationsWriteOnlyTheirRegisters : Prop :=
  ∀ (i : Instr) (s t : State), exec i s = .next t → i ≠ .reset →
    t.input = s.input ∧
    (i ≠ .tick → t.cnt = s.cnt) ∧
    ((∀ l b, i ≠ .rxRed l b) → t.th .red = s.th .red) ∧
    ((∀ l b, i ≠ .rxGreen l b) → t.th .green = s.th .green) ∧
    ((∀ l b, i ≠ .rxBlue l b) → t.th .blue = s.th .blue) ∧
    (i ≠ .tick → (∀ a b c, i ≠ .pstart a b c) → (∀ v, i ≠ .matchR v) → t.out .red = s.out .red) ∧
    (i ≠ .tick → (∀ a b c, i ≠ .pstart a b c) → (∀ v, i ≠ .matchG v) → t.out .green = s.out .green) ∧
    (i ≠ .tick → (∀ a b c, i ≠ .pstart a b c) → (∀ v, i ≠ .matchB v) → t.out .blue = s.out .blue) ∧
    (∀ l, (∀ b, i ≠ .rxLen l b ∧ i ≠ .rxRed l b ∧ i ≠ .rxGreen l b ∧ i ≠ .rxBlue l b ∧ i ≠ .rxPass l b) →
      t.cur l = s.cur l) ∧
    ∀ m, (∀ b, i ≠ .rxPass (peer m) b) → (∀ b : Byte, 5 ≤ b.toNat → i ≠ .rxLen (peer m) b) →
      (∀ b : Byte, b.toNat ≤ 4 → i ≠ .rxLen m b) → (∀ v, i ≠ .emit m v) → t.txlog m = s.txlog m

/-- A stalled link stays as it is through any events but `RESET`, and each byte that arrives on it is consumed with no effect
(R97; decisions D5 and D6). -/
def Obligations.StalledLinkIgnoresBytes : Prop :=
  ∀ (s : State) (l : Link), (s.cur l).stalled = true →
    (∀ (b : Byte) (rest : List Event), s.input = .rx l b :: rest → step s = .next (s.withInput rest)) ∧
    ∀ es : List Event, (∀ e ∈ es, e.wf = true ∧ e ≠ .reset) → ∃ t, runEvents es s = .next t ∧ t.cur l = s.cur l

/-- With bytes left to count, the underflow policy makes no difference: every decoder operation does the same under the
policy `wrap` that D5 sets aside (spec/92_eei_decisions.md D5, spec/93 U1). -/
def Obligations.UnderflowPolicyMattersOnlyAtZero : Prop :=
  ∀ (s : State) (l : Link) (b : Byte) (p : UnderflowPolicy), (s.cur l).remaining ≠ 0 →
    exec (.rxRed l b) s = .next (s.takeDuty p .red (fun _ => .green) l b) ∧
    exec (.rxGreen l b) s = .next (s.takeDuty p .green (fun _ => .blue) l b) ∧
    exec (.rxBlue l b) s = .next (s.takeDuty p .blue stateAfterBlue l b) ∧
    exec (.rxPass l b) s = .next (s.takePayload p l b)

/-! ### Packets -/

/-- A length byte of 0, 1 or 2 stalls the link: in `GREEN` with only red written, in `BLUE` with red and green written, in
`PASSTHROUGH` with all three written (R163, R51; a derivation of the spec from decision D5). -/
def Obligations.ShortPacketsStallTheLink : Prop :=
  ∀ (s : State) (l : Link) (r g b : Byte), (s.cur l).state = 0 →
    (∃ t, runEvents (receive l [0, r, g, b]) s = .next t ∧ t.cur l = ⟨2, 0⟩ ∧
      t.th .red = r ∧ t.th .green = s.th .green ∧ t.th .blue = s.th .blue) ∧
    (∃ t, runEvents (receive l [1, r, g, b]) s = .next t ∧ t.cur l = ⟨3, 0⟩ ∧
      t.th .red = r ∧ t.th .green = g ∧ t.th .blue = s.th .blue) ∧
    (∃ t, runEvents (receive l [2, r, g, b]) s = .next t ∧ t.cur l = ⟨4, 0⟩ ∧
      t.th .red = r ∧ t.th .green = g ∧ t.th .blue = b)

/-- Packet length law: a well-formed packet of declared length `L` brings the cursor back to `AWAIT_LENGTH`, with count 1,
after exactly `L + 1` bytes and not before (R100, a derivation of the spec). -/
def Obligations.PacketEndsAfterDeclaredLength : Prop :=
  ∀ (s : State) (l : Link) (p : Packet), p.wf = true → (s.cur l).state = 0 →
    (∃ t, runEvents (receive l p.bytes) s = .next t ∧ t.cur l = ⟨0, 1⟩) ∧ p.bytes.length = p.length.toNat + 1 ∧
    ∀ j, 0 < j → j ≤ p.length.toNat →
      ∃ t, runEvents (receive l (p.bytes.take j)) s = .next t ∧ (t.cur l).state ≠ 0

/-- Relay law: a well-formed packet received whole sets the three thresholds to its duties and emits, for `L` = 3 or 4, the
one byte `0x00` on its own link, and for `L >= 5`, `L - 3` and then its payload bytes but the last on the peer link; nothing
else changes but the cursor (R101, a derivation of the spec). -/
def Obligations.PacketSetsThresholdsAndRelaysPayload : Prop :=
  ∀ (s : State) (l : Link) (p : Packet), p.wf = true → (s.cur l).state = 0 →
    ∃ t, runEvents (receive l p.bytes) s = .next t ∧
      t.th .red = p.red ∧ t.th .green = p.green ∧ t.th .blue = p.blue ∧
      t.txlog l = s.txlog l ++ (if p.length.toNat ≤ 4 then [0] else []) ∧
      t.txlog (peer l) = s.txlog (peer l) ++ (if p.length.toNat ≤ 4 then [] else (p.length - 3) :: p.rest.dropLast) ∧
      t.cur (peer l) = s.cur (peer l) ∧ t.cnt = s.cnt ∧ ∀ c, t.out c = s.out c

/-- Round trip and idempotence: `[3, R, G, B]` sets the thresholds to `R, G, B`, emits `0x00` on its link and leaves the
cursor in `AWAIT_LENGTH`; and any well-formed packet sent twice leaves the thresholds and the cursor that it leaves sent
once (R104, a derivation of the spec). -/
def Obligations.RepeatedPacketLeavesSameThresholds : Prop :=
  ∀ (s : State) (l : Link), (s.cur l).state = 0 →
    (∀ r g b : Byte, ∃ t, runEvents (receive l [3, r, g, b]) s = .next t ∧ t.th .red = r ∧ t.th .green = g ∧
      t.th .blue = b ∧ t.txlog l = s.txlog l ++ [0] ∧ (t.cur l).state = 0) ∧
    ∀ p : Packet, p.wf = true → ∃ t u, runEvents (receive l p.bytes) s = .next t ∧
      runEvents (receive l (p.bytes ++ p.bytes)) s = .next u ∧ u.cur l = t.cur l ∧ ∀ c, u.th c = t.th c

/-- The relayed stream of a packet with `L >= 5` is one byte short of a packet: it has `L - 3` bytes, and a decoder that awaits
a length byte and receives it is left waiting inside a packet. For `L >= 6` one further byte, whatever its value, ends that
packet; for `L = 5` the relayed length is 2, and two further bytes leave the decoder stalled (R166, a derivation of the spec;
the stall is decision D5). -/
def Obligations.RelayedStreamIsOneByteShort : Prop :=
  ∀ (s : State) (m : Link) (p : Packet), p.wf = true → 5 ≤ p.length.toNat → (s.cur m).state = 0 →
    ((p.length - 3) :: p.rest.dropLast).length + 3 = p.length.toNat ∧
    (∃ t, runEvents (receive m ((p.length - 3) :: p.rest.dropLast)) s = .next t ∧ (t.cur m).state ≠ 0) ∧
    (6 ≤ p.length.toNat → ∀ x : Byte, ∃ t,
      runEvents (receive m ((p.length - 3) :: p.rest.dropLast ++ [x])) s = .next t ∧ t.cur m = ⟨0, 1⟩) ∧
    (p.length.toNat = 5 → ∀ x y : Byte, ∃ t,
      runEvents (receive m ((p.length - 3) :: p.rest.dropLast ++ [x, y])) s = .next t ∧ t.cur m = ⟨4, 0⟩ ∧
        (t.cur m).stalled = true)

/-! ### Agents and ordering -/

/-- The two decoders are identical: a step of the block with its links exchanged is the step with its links exchanged, so
whatever one decoder does the other does (R102; decision D12). -/
def Obligations.DecodersAreMirrorImages : Prop :=
  ∀ s : State, step s.mirror = mirrorOutcome (step s)

/-- A link's cursor after a run depends only on the cursor before it and on that link's own bytes, not on the ticks, on the
other link's bytes, or on how they interleave (R37, R21). -/
def Obligations.CursorDependsOnOwnBytesOnly : Prop :=
  ∀ (es fs : List Event) (s u s' u' : State) (l : Link),
    (∀ e ∈ es ++ fs, e ≠ .reset) → bytesOn l es = bytesOn l fs → s.cur l = u.cur l →
    runEvents es s = .next s' → runEvents fs u = .next u' → s'.cur l = u'.cur l

/-- Last write wins: when both decoders write the same threshold, the later byte is what it holds (R41). -/
def Obligations.LaterDutyByteWins : Prop :=
  ∀ (s : State) (l : Link) (b₁ b₂ : Byte) (st : StateCode) (c : Channel),
    (st = 1 ∧ c = .red ∨ st = 2 ∧ c = .green ∨ st = 3 ∧ c = .blue) →
    (∀ m, (s.cur m).state = st ∧ (s.cur m).remaining ≠ 0) →
    ∃ t, runEvents [.rx l b₁, .rx (peer l) b₂] s = .next t ∧ t.th c = b₂

/-- The order of a tick and a byte matters only where the byte writes a threshold: a byte that writes none commutes with a
tick, be it a length byte, a payload byte, a duty byte with nothing left to count or a byte in an unrecognised state (R134, a
derivation of the spec; the last two rest on decisions D5 and D6). -/
def Obligations.TickCommutesWithNonDutyByte : Prop :=
  ∀ (s : State) (l : Link) (b : Byte), (s.cur l).dutyChannel = none →
    runEvents [tickEvent, .rx l b] s = runEvents [.rx l b, tickEvent] s

/-- Two bytes on different links commute unless both write the same threshold or both are emitted on the same transmit path,
in every pair of cursors (R134, a derivation of the spec; the bytes with no effect rest on decisions D5 and D6). -/
def Obligations.BytesOnDifferentLinksCommute : Prop :=
  ∀ (s : State) (b₁ b₂ : Byte),
    (∀ c, ¬ (s.curUsb.dutyChannel = some c ∧ s.curPin.dutyChannel = some c)) →
    (∀ m, ¬ (s.curUsb.emissionLink .usb b₁ = some m ∧ s.curPin.emissionLink .pin b₂ = some m)) →
    runEvents [.rx .usb b₁, .rx .pin b₂] s = runEvents [.rx .pin b₂, .rx .usb b₁] s

/-! ### Reset and invariants -/

/-- `RESET` completes in every state: every register takes its reset value and both logs are empty (R150, R24; all values but
the cursors' state are decision D9). That the coming events stay is the model's choice, about a field of its own (log entries
1 and 21). -/
def Obligations.ResetWritesEveryRegister : Prop :=
  ∀ s : State, ∃ t, exec .reset s = .next t ∧ t.cnt.val = 0 ∧ (∀ c, t.th c = 0 ∧ t.out c = false) ∧
    (∀ l, t.cur l = ⟨0, 0⟩ ∧ t.txlog l = []) ∧ t.input = s.input

/-- The reset state is as R24's table gives it (decision D9), with no event offered (log entry 1). -/
def Obligations.ResetStateHoldsResetValues : Prop :=
  State.reset.cnt = 0 ∧ (∀ c, State.reset.th c = 0 ∧ State.reset.out c = false) ∧
    (∀ l, State.reset.cur l = ⟨0, 0⟩ ∧ State.reset.txlog l = []) ∧ State.reset.input = []

/-- The reset state satisfies the invariants of R25. -/
def Obligations.ResetStateIsLegal : Prop :=
  State.reset.legal = true

/-- Every step keeps the invariants R25 gives of reachable states: legal state codes, counts of at most 256, count 0 or 1
while a length byte is awaited, at least 1 in `RED`, and 0 or at least 2 in `PASSTHROUGH` (R25, a derivation of the spec). -/
def Obligations.StepKeepsCursorsLegal : Prop :=
  ∀ s t : State, s.legal = true → step s = .next t → t.legal = true
end

