-- ==== Sys2Proof/Laws/Decode.lean ====
section
/-!
SUPPORT. The dispatch word as a number, what its fields read, and what the table's masks say of the fields.
-/
namespace Sys2Proof

@[simp] theorem Link.ofCode_code (l : Link) : Link.ofCode l.code = l := by
  cases l <;> rfl

theorem Link.code_ofCode (c : BitVec 1) : (Link.ofCode c).code = c := by
  revert c; decide

/-- The receive word as a number: its fields stand at bits 12, 11, 8 and 0. -/
theorem receiveWord_toNat (l : Link) (st : StateCode) (b : Byte) :
    (receiveWord l st b).toNat = 4096 + 2048 * l.code.toNat + 256 * st.toNat + b.toNat := by
  have hst := st.isLt
  have hb := b.isLt
  show ((1 : BitVec 1) ++ l.code ++ st ++ b).toNat = _
  rw [BitVec.toNat_append, BitVec.toNat_append, BitVec.toNat_append, ← Nat.shiftLeft_add_eq_or_of_lt b.isLt,
    ← Nat.shiftLeft_add_eq_or_of_lt st.isLt, ← Nat.shiftLeft_add_eq_or_of_lt l.code.isLt]
  simp only [Nat.shiftLeft_eq]
  cases l <;> simp [Link.code] <;> omega

theorem timerWord_toNat (low : BitVec 12) : (timerWord low).toNat = low.toNat := by
  show ((0 : BitVec 1) ++ low).toNat = _
  rw [BitVec.toNat_append, ← Nat.shiftLeft_add_eq_or_of_lt low.isLt]
  simp

@[simp] theorem dwKind_receiveWord (l : Link) (st : StateCode) (b : Byte) : dwKind (receiveWord l st b) = 1 := by
  have := st.isLt
  have := b.isLt
  apply BitVec.eq_of_toNat_eq
  rw [dwKind, BitVec.extractLsb'_toNat, receiveWord_toNat, Nat.shiftRight_eq_div_pow]
  cases l <;> simp [Link.code] <;> omega

@[simp] theorem dwLink_receiveWord (l : Link) (st : StateCode) (b : Byte) : dwLink (receiveWord l st b) = l.code := by
  have := st.isLt
  have := b.isLt
  apply BitVec.eq_of_toNat_eq
  rw [dwLink, BitVec.extractLsb'_toNat, receiveWord_toNat, Nat.shiftRight_eq_div_pow]
  cases l <;> simp [Link.code] <;> omega

@[simp] theorem dwState_receiveWord (l : Link) (st : StateCode) (b : Byte) : dwState (receiveWord l st b) = st := by
  have := st.isLt
  have := b.isLt
  apply BitVec.eq_of_toNat_eq
  rw [dwState, BitVec.extractLsb'_toNat, receiveWord_toNat, Nat.shiftRight_eq_div_pow]
  cases l <;> simp [Link.code] <;> omega

@[simp] theorem dwByte_receiveWord (l : Link) (st : StateCode) (b : Byte) : dwByte (receiveWord l st b) = b := by
  have := st.isLt
  have := b.isLt
  apply BitVec.eq_of_toNat_eq
  rw [dwByte, BitVec.extractLsb'_toNat, receiveWord_toNat, Nat.shiftRight_eq_div_pow]
  cases l <;> simp [Link.code] <;> omega

@[simp] theorem dwKind_timerWord (low : BitVec 12) : dwKind (timerWord low) = 0 := by
  have := low.isLt
  apply BitVec.eq_of_toNat_eq
  rw [dwKind, BitVec.extractLsb'_toNat, timerWord_toNat, Nat.shiftRight_eq_div_pow]
  simp
  omega

@[simp] theorem dwLow_timerWord (low : BitVec 12) : dwLow (timerWord low) = low := by
  have := low.isLt
  apply BitVec.eq_of_toNat_eq
  rw [dwLow, BitVec.extractLsb'_toNat, timerWord_toNat]
  simp
  omega

/-- A word with `k == 1` is the receive word of its fields. -/
theorem receiveWord_of_fields {w : DispatchWord} (h : dwKind w = 1) :
    receiveWord (Link.ofCode (dwLink w)) (dwState w) (dwByte w) = w := by
  have hw := w.isLt
  have hk := congrArg BitVec.toNat h
  apply BitVec.eq_of_toNat_eq
  rw [receiveWord_toNat, Link.code_ofCode]
  simp only [dwKind, dwLink, dwState, dwByte, BitVec.extractLsb'_toNat, Nat.shiftRight_eq_div_pow] at *
  simp at hk ⊢
  omega

/-- A word with `k == 0` is the timer word of its lower bits. -/
theorem timerWord_of_low {w : DispatchWord} (h : dwKind w = 0) : timerWord (dwLow w) = w := by
  have hw := w.isLt
  have hk := congrArg BitVec.toNat h
  apply BitVec.eq_of_toNat_eq
  rw [timerWord_toNat]
  simp only [dwKind, dwLow, BitVec.extractLsb'_toNat, Nat.shiftRight_eq_div_pow] at *
  simp at hk ⊢
  omega

/-! ### Masks -/

/-- The mask of a receive row keeps `k` and `st`. -/
theorem receiveWord_and_0x1700 (l : Link) (st : StateCode) (b : Byte) :
    receiveWord l st b &&& 0x1700 = receiveWord .usb st 0 := by
  show ((1 : BitVec 1) ++ l.code ++ st ++ b) &&& ((1 : BitVec 1) ++ (0 : BitVec 1) ++ (7 : BitVec 3) ++ (0 : BitVec 8)) =
    (1 : BitVec 1) ++ (0 : BitVec 1) ++ st ++ (0 : BitVec 8)
  have h : st &&& 7 = st := by revert st; decide
  rw [BitVec.and_append, BitVec.and_append, BitVec.and_append, h]
  simp

/-- The mask of `RX.NOP`'s second row keeps `k` and the two upper bits of `st`. -/
theorem receiveWord_and_0x1600 (l : Link) (st : StateCode) (b : Byte) :
    receiveWord l st b &&& 0x1600 = receiveWord .usb (st &&& 6) 0 := by
  show ((1 : BitVec 1) ++ l.code ++ st ++ b) &&& ((1 : BitVec 1) ++ (0 : BitVec 1) ++ (6 : BitVec 3) ++ (0 : BitVec 8)) =
    (1 : BitVec 1) ++ (0 : BitVec 1) ++ (st &&& 6) ++ (0 : BitVec 8)
  rw [BitVec.and_append, BitVec.and_append, BitVec.and_append]
  simp

/-- The mask of row `TICK` keeps every bit. -/
theorem and_0x1FFF (w : DispatchWord) : w &&& 0x1FFF = w :=
  BitVec.and_allOnes

/-! ### The rows -/

theorem receiveWord_inj {l m : Link} {st st' : StateCode} {b b' : Byte} (h : receiveWord l st b = receiveWord m st' b') :
    l = m ∧ st = st' ∧ b = b' := by
  refine ⟨?_, ?_, ?_⟩
  · have := congrArg (fun w => Link.ofCode (dwLink w)) h
    simpa using this
  · simpa using congrArg dwState h
  · simpa using congrArg dwByte h

/-- Which rows select a receive word, by its state code. -/
theorem selects_receiveWord (l : Link) (st st' : StateCode) (b : Byte) :
    (OpRow.selects ⟨0x1700, receiveWord .usb st' 0⟩ (receiveWord l st b) = true ↔ st = st') := by
  simp only [OpRow.selects, receiveWord_and_0x1700, beq_iff_eq]
  exact ⟨fun h => (receiveWord_inj h).2.1, fun h => by rw [h]⟩

theorem rowNop67_selects_receiveWord (l : Link) (st : StateCode) (b : Byte) :
    rowNop67.selects (receiveWord l st b) = true ↔ st = 6 ∨ st = 7 := by
  have hpat : rowNop67.pat = receiveWord .usb 6 0 := rfl
  have h6 : st &&& 6 = 6 ↔ st = 6 ∨ st = 7 := by revert st; decide
  rw [← h6, OpRow.selects, hpat, beq_iff_eq]
  show receiveWord l st b &&& 0x1600 = _ ↔ _
  rw [receiveWord_and_0x1600]
  exact ⟨fun h => (receiveWord_inj h).2.1, fun h => by rw [h]⟩

theorem rowTick_selects_iff (w : DispatchWord) : rowTick.selects w = true ↔ w = 0 := by
  simp only [OpRow.selects, rowTick, and_0x1FFF, beq_iff_eq]

theorem receiveWord_ne_zero (l : Link) (st : StateCode) (b : Byte) : receiveWord l st b ≠ 0 := by
  intro h
  have := congrArg BitVec.toNat h
  rw [receiveWord_toNat] at this
  simp at this

/-- What each state code decodes to (R58). -/
theorem decode_receiveWord (l : Link) (st : StateCode) (b : Byte) :
    decode (receiveWord l st b) =
      if st = 0 then .ok (.rxLen l b) else if st = 1 then .ok (.rxRed l b) else if st = 2 then .ok (.rxGreen l b)
      else if st = 3 then .ok (.rxBlue l b) else if st = 4 then .ok (.rxPass l b) else if st = 5 then .ok (.rxNop5 l b)
      else .ok (.rxNop67 l (st.extractLsb' 0 1) b) := by
  have row (r : OpRow) (st' : StateCode) (h : r = ⟨0x1700, receiveWord .usb st' 0⟩) :
      r.selects (receiveWord l st b) = true ↔ st = st' := by rw [h]; exact selects_receiveWord l st st' b
  have hlow : (receiveWord l st b).extractLsb' 8 1 = st.extractLsb' 0 1 := by
    have := st.isLt
    have := b.isLt
    apply BitVec.eq_of_toNat_eq
    rw [BitVec.extractLsb'_toNat, BitVec.extractLsb'_toNat, receiveWord_toNat, Nat.shiftRight_eq_div_pow]
    cases l <;> simp [Link.code] <;> omega
  have h7 : st = 0 ∨ st = 1 ∨ st = 2 ∨ st = 3 ∨ st = 4 ∨ st = 5 ∨ st = 6 ∨ st = 7 := by clear row hlow; revert st; decide
  simp only [decode, rowTick_selects_iff, receiveWord_ne_zero, row rowLen 0 rfl, row rowRed 1 rfl, row rowGreen 2 rfl,
    row rowBlue 3 rfl, row rowPass 4 rfl, row rowNop5 5 rfl, rowNop67_selects_receiveWord, hlow, dwLink_receiveWord,
    dwByte_receiveWord, Link.ofCode_code, if_false]
  obtain h | h | h | h | h | h | h | h := h7 <;> subst h <;> rfl

/-- What a word with `k == 0` decodes to (R58, R60). -/
theorem decode_timerWord (low : BitVec 12) :
    decode (timerWord low) = if low = 0 then .ok .tick else .error .reservedTimerWord := by
  have hzero : timerWord low = 0 ↔ low = 0 :=
    ⟨fun h => by rw [← dwLow_timerWord low, h]; rfl, fun h => by rw [h]; rfl⟩
  have hrow (r : OpRow) (hm : r.mask.getLsbD 12 = true) (hp : r.pat.getLsbD 12 = true) :
      ¬ r.selects (timerWord low) = true := by
    intro h
    have h12 : (timerWord low).getLsbD 12 = false := by
      rw [BitVec.getLsbD, timerWord_toNat]
      exact Nat.testBit_lt_two_pow low.isLt
    have := congrArg (fun w => w.getLsbD 12) (beq_iff_eq.1 h)
    simp only [BitVec.getLsbD_and, hp, h12, Bool.false_and] at this
    exact absurd this (by decide)
  simp only [decode, rowTick_selects_iff, hzero, hrow rowLen rfl rfl, hrow rowRed rfl rfl, hrow rowGreen rfl rfl,
    hrow rowBlue rfl rfl, hrow rowPass rfl rfl, hrow rowNop5 rfl rfl, hrow rowNop67 rfl rfl, if_neg Bool.false_ne_true]

end Sys2Proof
end

