-- ==== Sys2Proof/Laws/Operands.lean ====
section
/-!
SUPPORT. What the operand and output computations give, in plain arithmetic.
-/
namespace Sys2Proof.Machine

theorem nextCount_val (n : Count) : (nextCount n).val = (n.val + 1) % 255 := by
  unfold nextCount
  split
  · next h => subst h; rfl
  · exact Fin.val_add n 1

theorem nextCount_val_ite (n : Count) : (nextCount n).val = if n.val = 254 then 0 else n.val + 1 := by
  have := n.isLt
  rw [nextCount_val]
  split <;> omega

theorem nextCount_eq_zero_iff (n : Count) : nextCount n = 0 ↔ n.val = 254 := by
  have := n.isLt
  rw [Fin.ext_iff, nextCount_val]
  simp only [Fin.val_zero]
  omega

@[simp] theorem peer_peer (l : Link) : peer (peer l) = l := by
  cases l <;> rfl

@[simp] theorem peer_ne (l : Link) : peer l ≠ l := by
  cases l <;> decide

@[simp] theorem ne_peer (l : Link) : l ≠ peer l := by
  cases l <;> decide

theorem loadedRemaining_toNat (b : Byte) : (loadedRemaining b).toNat = b.toNat + 1 := by
  have := b.isLt
  simp only [loadedRemaining, zext9, BitVec.toNat_add, BitVec.toNat_setWidth, BitVec.ofNat_eq_ofNat,
    BitVec.toNat_ofNat]
  omega

theorem headerIsLarge_iff (b : Byte) : headerIsLarge b = true ↔ 5 ≤ b.toNat := by
  simp only [headerIsLarge, Config.hdrMin, decide_eq_true_eq, BitVec.le_def, loadedRemaining_toNat]
  simp only [BitVec.ofNat_eq_ofNat, BitVec.toNat_ofNat]
  omega

theorem headerByte_large {b : Byte} (h : 5 ≤ b.toNat) : headerByte b = b - 3 := by
  simp [headerByte, (headerIsLarge_iff b).2 h, Config.hdrSub]

theorem headerByte_small {b : Byte} (h : b.toNat ≤ 4) : headerByte b = 0 := by
  have : ¬ headerIsLarge b = true := by rw [headerIsLarge_iff]; omega
  simp [headerByte, this]

theorem headerLink_large {b : Byte} (l : Link) (h : 5 ≤ b.toNat) : headerLink l b = peer l := by
  simp [headerLink, routeLink, Config.hdrDest, (headerIsLarge_iff b).2 h]

theorem headerLink_small {b : Byte} (l : Link) (h : b.toNat ≤ 4) : headerLink l b = l := by
  have : ¬ headerIsLarge b = true := by rw [headerIsLarge_iff]; omega
  simp [headerLink, routeLink, Config.hdrDest, this]

@[simp] theorem starved_hold (c : Cursor) : starved .hold c = true ↔ c.remaining = 0 := by
  simp [starved]

@[simp] theorem starved_wrap (c : Cursor) : starved .wrap c = false := rfl

theorem starved_eq_false (p : UnderflowPolicy) {c : Cursor} (h : c.remaining ≠ 0) : starved p c = false := by
  cases p
  · exact beq_false_of_ne h
  · rfl

theorem completes_decremented_iff (r : Remaining) : completes (decremented r) = true ↔ r = 2 := by
  simp only [completes, decremented, Config.doneAt, beq_iff_eq]
  constructor <;> intro h
  · bv_omega
  · subst h; rfl

theorem stateAfterBlue_decremented (r : Remaining) : stateAfterBlue (decremented r) = if r = 2 then 0 else 4 := by
  unfold stateAfterBlue
  by_cases h : r = 2
  · rw [if_pos ((completes_decremented_iff r).2 h), if_pos h]; rfl
  · rw [if_neg (fun h' => h ((completes_decremented_iff r).1 h')), if_neg h]; rfl

theorem outAtPeriodStart_eq (t : Byte) (old : Bool) : outAtPeriodStart t old = (decide (t ≠ 0) || old) := by
  unfold outAtPeriodStart
  by_cases h : t = 0 <;> simp [h]

theorem outAtMatch_eq (t : Byte) (old : Bool) : outAtMatch t old = if 255 ≤ t.toNat then old else false := rfl

theorem matchFires_suppressed_iff (n : Count) (t : Byte) :
    matchFires .suppressed n t = true ↔ t ≠ 0 ∧ n.val = t.toNat := by
  simp [matchFires]

theorem matchFires_fires_iff (n : Count) (t : Byte) : matchFires .fires n t = true ↔ n.val = t.toNat := by
  simp [matchFires]

end Sys2Proof.Machine
end

