-- ==== Sys2Proof/Laws/State.lean ====
section
/-!
SUPPORT. What each accessor reads after each register update: one lemma per pair, so that no proof unfolds a record update.
-/
namespace Sys2Proof.Machine

variable (s : State)

/-! ### After `setTh` -/
@[simp] theorem State.th_setTh (c : Channel) (v : Byte) (d : Channel) : (s.setTh c v).th d = if d = c then v else s.th d := by
  cases c <;> cases d <;> rfl
@[simp] theorem State.out_setTh (c : Channel) (v : Byte) (d : Channel) : (s.setTh c v).out d = s.out d := by
  cases c <;> rfl
@[simp] theorem State.cur_setTh (c : Channel) (v : Byte) (m : Link) : (s.setTh c v).cur m = s.cur m := by
  cases c <;> rfl
@[simp] theorem State.txlog_setTh (c : Channel) (v : Byte) (m : Link) : (s.setTh c v).txlog m = s.txlog m := by
  cases c <;> rfl
@[simp] theorem State.cnt_setTh (c : Channel) (v : Byte) : (s.setTh c v).cnt = s.cnt := by
  cases c <;> rfl
@[simp] theorem State.input_setTh (c : Channel) (v : Byte) : (s.setTh c v).input = s.input := by
  cases c <;> rfl

/-! ### After `setOut` -/
@[simp] theorem State.th_setOut (c : Channel) (v : Bool) (d : Channel) : (s.setOut c v).th d = s.th d := by
  cases c <;> rfl
@[simp] theorem State.out_setOut (c : Channel) (v : Bool) (d : Channel) : (s.setOut c v).out d = if d = c then v else s.out d := by
  cases c <;> cases d <;> rfl
@[simp] theorem State.cur_setOut (c : Channel) (v : Bool) (m : Link) : (s.setOut c v).cur m = s.cur m := by
  cases c <;> rfl
@[simp] theorem State.txlog_setOut (c : Channel) (v : Bool) (m : Link) : (s.setOut c v).txlog m = s.txlog m := by
  cases c <;> rfl
@[simp] theorem State.cnt_setOut (c : Channel) (v : Bool) : (s.setOut c v).cnt = s.cnt := by
  cases c <;> rfl
@[simp] theorem State.input_setOut (c : Channel) (v : Bool) : (s.setOut c v).input = s.input := by
  cases c <;> rfl

/-! ### After `setCur` -/
@[simp] theorem State.th_setCur (l : Link) (v : Cursor) (d : Channel) : (s.setCur l v).th d = s.th d := by
  cases l <;> rfl
@[simp] theorem State.out_setCur (l : Link) (v : Cursor) (d : Channel) : (s.setCur l v).out d = s.out d := by
  cases l <;> rfl
@[simp] theorem State.cur_setCur (l : Link) (v : Cursor) (m : Link) : (s.setCur l v).cur m = if m = l then v else s.cur m := by
  cases l <;> cases m <;> rfl
@[simp] theorem State.txlog_setCur (l : Link) (v : Cursor) (m : Link) : (s.setCur l v).txlog m = s.txlog m := by
  cases l <;> rfl
@[simp] theorem State.cnt_setCur (l : Link) (v : Cursor) : (s.setCur l v).cnt = s.cnt := by
  cases l <;> rfl
@[simp] theorem State.input_setCur (l : Link) (v : Cursor) : (s.setCur l v).input = s.input := by
  cases l <;> rfl

/-! ### After `transmit` -/
@[simp] theorem State.th_transmit (l : Link) (v : Byte) (d : Channel) : (s.transmit l v).th d = s.th d := by
  cases l <;> rfl
@[simp] theorem State.out_transmit (l : Link) (v : Byte) (d : Channel) : (s.transmit l v).out d = s.out d := by
  cases l <;> rfl
@[simp] theorem State.cur_transmit (l : Link) (v : Byte) (m : Link) : (s.transmit l v).cur m = s.cur m := by
  cases l <;> rfl
@[simp] theorem State.txlog_transmit (l : Link) (v : Byte) (m : Link) : (s.transmit l v).txlog m = if m = l then s.txlog m ++ [v] else s.txlog m := by
  cases l <;> cases m <;> rfl
@[simp] theorem State.cnt_transmit (l : Link) (v : Byte) : (s.transmit l v).cnt = s.cnt := by
  cases l <;> rfl
@[simp] theorem State.input_transmit (l : Link) (v : Byte) : (s.transmit l v).input = s.input := by
  cases l <;> rfl

/-! ### After `setCnt` -/
@[simp] theorem State.th_setCnt (n : Count) (d : Channel) : (s.setCnt n).th d = s.th d := by
  rfl
@[simp] theorem State.out_setCnt (n : Count) (d : Channel) : (s.setCnt n).out d = s.out d := by
  rfl
@[simp] theorem State.cur_setCnt (n : Count) (m : Link) : (s.setCnt n).cur m = s.cur m := by
  rfl
@[simp] theorem State.txlog_setCnt (n : Count) (m : Link) : (s.setCnt n).txlog m = s.txlog m := by
  rfl
@[simp] theorem State.cnt_setCnt (n : Count) : (s.setCnt n).cnt = n := by
  rfl
@[simp] theorem State.input_setCnt (n : Count) : (s.setCnt n).input = s.input := by
  rfl

/-! ### After the coming events are replaced -/
@[simp] theorem State.th_withInput (es : List Event) (d : Channel) : (s.withInput es).th d = s.th d := by cases d <;> rfl
@[simp] theorem State.out_withInput (es : List Event) (d : Channel) : (s.withInput es).out d = s.out d := by cases d <;> rfl
@[simp] theorem State.cur_withInput (es : List Event) (m : Link) : (s.withInput es).cur m = s.cur m := by cases m <;> rfl
@[simp] theorem State.txlog_withInput (es : List Event) (m : Link) : (s.withInput es).txlog m = s.txlog m := by cases m <;> rfl
@[simp] theorem State.cnt_withInput (es : List Event) : (s.withInput es).cnt = s.cnt := rfl
@[simp] theorem State.input_withInput (es : List Event) : (s.withInput es).input = es := rfl

@[simp] theorem State.withInput_withInput (es fs : List Event) : (s.withInput es).withInput fs = s.withInput fs := rfl

@[simp] theorem State.withInput_input : s.withInput s.input = s := rfl

/-! ### The raw fields are the accessors' values -/

theorem State.thRed_eq : s.thRed = s.th .red := rfl
theorem State.thGreen_eq : s.thGreen = s.th .green := rfl
theorem State.thBlue_eq : s.thBlue = s.th .blue := rfl
theorem State.outRed_eq : s.outRed = s.out .red := rfl
theorem State.outGreen_eq : s.outGreen = s.out .green := rfl
theorem State.outBlue_eq : s.outBlue = s.out .blue := rfl
theorem State.curUsb_eq : s.curUsb = s.cur .usb := rfl
theorem State.curPin_eq : s.curPin = s.cur .pin := rfl
theorem State.txUsb_eq : s.txUsb = s.txlog .usb := rfl
theorem State.txPin_eq : s.txPin = s.txlog .pin := rfl

/-- Two states are equal when every accessor reads the same. -/
theorem State.eq_of_accessors {s t : State} (hth : ∀ c, s.th c = t.th c) (hcnt : s.cnt = t.cnt) (hout : ∀ c, s.out c = t.out c)
    (hcur : ∀ l, s.cur l = t.cur l) (htx : ∀ l, s.txlog l = t.txlog l) (hin : s.input = t.input) : s = t := by
  have h1 := hth .red
  have h2 := hth .green
  have h3 := hth .blue
  have h4 := hout .red
  have h5 := hout .green
  have h6 := hout .blue
  have h7 := hcur .usb
  have h8 := hcur .pin
  have h9 := htx .usb
  have h10 := htx .pin
  cases s
  cases t
  simp only [State.th, State.out, State.cur, State.txlog] at *
  subst_vars
  rfl

end Sys2Proof.Machine
end

