-- ==== Sys2Proof/Laws/Ops.lean ====
section
/-!
SUPPORT. What each shared operation does to each register and log: cite these instead of unfolding the operation.
-/
namespace Sys2Proof.Machine

variable (s : State)

/-! ### `PSTART` and `MATCH(c)` -/

@[simp] theorem State.out_periodStart (tr tg tb : Byte) (c : Channel) :
    (s.periodStart tr tg tb).out c =
      outAtPeriodStart (match c with | .red => tr | .green => tg | .blue => tb) (s.out c) := by
  cases c <;> rfl

@[simp] theorem State.th_periodStart (tr tg tb : Byte) (c : Channel) : (s.periodStart tr tg tb).th c = s.th c := by
  simp [State.periodStart]

@[simp] theorem State.cnt_periodStart (tr tg tb : Byte) : (s.periodStart tr tg tb).cnt = s.cnt := rfl

@[simp] theorem State.cur_periodStart (tr tg tb : Byte) (l : Link) : (s.periodStart tr tg tb).cur l = s.cur l := by
  simp [State.periodStart]

@[simp] theorem State.txlog_periodStart (tr tg tb : Byte) (l : Link) :
    (s.periodStart tr tg tb).txlog l = s.txlog l := by
  simp [State.periodStart]

@[simp] theorem State.input_periodStart (tr tg tb : Byte) : (s.periodStart tr tg tb).input = s.input := rfl

@[simp] theorem State.out_matchChannel (c d : Channel) (t : Byte) :
    (s.matchChannel c t).out d = if d = c then outAtMatch t (s.out c) else s.out d := by
  simp [State.matchChannel]

@[simp] theorem State.th_matchChannel (c d : Channel) (t : Byte) : (s.matchChannel c t).th d = s.th d := by
  simp [State.matchChannel]

@[simp] theorem State.cnt_matchChannel (c : Channel) (t : Byte) : (s.matchChannel c t).cnt = s.cnt := by
  simp [State.matchChannel]

@[simp] theorem State.cur_matchChannel (c : Channel) (t : Byte) (l : Link) : (s.matchChannel c t).cur l = s.cur l := by
  simp [State.matchChannel]

@[simp] theorem State.txlog_matchChannel (c : Channel) (t : Byte) (l : Link) :
    (s.matchChannel c t).txlog l = s.txlog l := by
  simp [State.matchChannel]

@[simp] theorem State.input_matchChannel (c : Channel) (t : Byte) : (s.matchChannel c t).input = s.input := by
  simp [State.matchChannel]

/-! ### `MATCH(c)` when it is reached -/

@[simp] theorem State.out_matchIfReached (z : ZeroMatchPolicy) (n : Count) (c d : Channel) (t : Byte) :
    (s.matchIfReached z n c t).out d = if d = c ∧ matchFires z n t = true then outAtMatch t (s.out c) else s.out d := by
  unfold State.matchIfReached
  by_cases h : matchFires z n t = true <;> simp [h]

@[simp] theorem State.th_matchIfReached (z : ZeroMatchPolicy) (n : Count) (c d : Channel) (t : Byte) :
    (s.matchIfReached z n c t).th d = s.th d := by
  unfold State.matchIfReached
  split <;> simp

@[simp] theorem State.cnt_matchIfReached (z : ZeroMatchPolicy) (n : Count) (c : Channel) (t : Byte) :
    (s.matchIfReached z n c t).cnt = s.cnt := by
  unfold State.matchIfReached
  split <;> simp

@[simp] theorem State.cur_matchIfReached (z : ZeroMatchPolicy) (n : Count) (c : Channel) (t : Byte) (l : Link) :
    (s.matchIfReached z n c t).cur l = s.cur l := by
  unfold State.matchIfReached
  split <;> simp

@[simp] theorem State.txlog_matchIfReached (z : ZeroMatchPolicy) (n : Count) (c : Channel) (t : Byte) (l : Link) :
    (s.matchIfReached z n c t).txlog l = s.txlog l := by
  unfold State.matchIfReached
  split <;> simp

@[simp] theorem State.input_matchIfReached (z : ZeroMatchPolicy) (n : Count) (c : Channel) (t : Byte) :
    (s.matchIfReached z n c t).input = s.input := by
  unfold State.matchIfReached
  split <;> simp

/-! ### `TICK` -/

@[simp] theorem State.cnt_tickWith (z : ZeroMatchPolicy) : (s.tickWith z).cnt = nextCount s.cnt := by
  simp only [State.tickWith, State.cnt_matchIfReached]
  split <;> simp

@[simp] theorem State.th_tickWith (z : ZeroMatchPolicy) (c : Channel) : (s.tickWith z).th c = s.th c := by
  simp only [State.tickWith, State.th_matchIfReached]
  split <;> simp

@[simp] theorem State.cur_tickWith (z : ZeroMatchPolicy) (l : Link) : (s.tickWith z).cur l = s.cur l := by
  simp only [State.tickWith, State.cur_matchIfReached]
  split <;> simp

@[simp] theorem State.txlog_tickWith (z : ZeroMatchPolicy) (l : Link) : (s.tickWith z).txlog l = s.txlog l := by
  simp only [State.tickWith, State.txlog_matchIfReached]
  split <;> simp

@[simp] theorem State.input_tickWith (z : ZeroMatchPolicy) : (s.tickWith z).input = s.input := by
  simp only [State.tickWith, State.input_matchIfReached]
  split <;> simp

/-- A channel's output after a tick, under either policy: `PSTART`, then its match. -/
theorem State.out_tickWith (z : ZeroMatchPolicy) (c : Channel) :
    (s.tickWith z).out c =
      let started := if nextCount s.cnt = 0 then outAtPeriodStart (s.th c) (s.out c) else s.out c
      if matchFires z (nextCount s.cnt) (s.th c) then outAtMatch (s.th c) started else started := by
  simp only [State.tickWith, State.out_matchIfReached]
  by_cases h : nextCount s.cnt = 0 <;> cases c <;> simp [h, State.th]

/-- A channel's output after a tick, in arithmetic. -/
theorem State.out_tick (c : Channel) :
    (s.tickWith .suppressed).out c =
      if (nextCount s.cnt).val = 0 then decide (s.th c ≠ 0) || s.out c
      else if (nextCount s.cnt).val = (s.th c).toNat then false else s.out c := by
  have hlt := (nextCount s.cnt).isLt
  have hth : s.th c = 0 ↔ (s.th c).toNat = 0 := ⟨fun h => by rw [h]; rfl, fun h => BitVec.eq_of_toNat_eq h⟩
  rw [State.out_tickWith]
  simp only [outAtPeriodStart_eq, outAtMatch_eq]
  by_cases h0 : (nextCount s.cnt).val = 0
  · have hfire : ¬ matchFires .suppressed (nextCount s.cnt) (s.th c) = true := by
      rw [matchFires_suppressed_iff, Ne, hth]; omega
    rw [if_neg hfire, if_pos (Fin.ext h0), if_pos h0]
  · have hne : ¬ nextCount s.cnt = 0 := fun h => h0 (congrArg Fin.val h)
    rw [if_neg h0]
    simp only [if_neg hne]
    by_cases h1 : (nextCount s.cnt).val = (s.th c).toNat
    · have hfire : matchFires .suppressed (nextCount s.cnt) (s.th c) = true := by
        rw [matchFires_suppressed_iff, Ne, hth]; omega
      rw [if_pos hfire, if_pos h1, if_neg (by omega)]
    · have hfire : ¬ matchFires .suppressed (nextCount s.cnt) (s.th c) = true := by
        rw [matchFires_suppressed_iff]; exact fun h => h1 h.2
      rw [if_neg hfire, if_neg h1]

/-! ### Decoder operations -/

/-- What a length byte does, on each branch (R92). -/
theorem State.takeLength_large {b : Byte} (l : Link) (h : 5 ≤ b.toNat) :
    s.takeLength l b = (s.setCur l ⟨1, loadedRemaining b⟩).transmit (peer l) (b - 3) := by
  simp only [State.takeLength, headerLink_large l h, headerByte_large h]
  rfl

theorem State.takeLength_small {b : Byte} (l : Link) (h : b.toNat ≤ 4) :
    s.takeLength l b = (s.setCur l ⟨1, loadedRemaining b⟩).transmit l 0 := by
  simp only [State.takeLength, headerLink_small l h, headerByte_small h]
  rfl

/-- Everything a duty byte can do under the rules' policy (R93 to R95, R97). -/
theorem State.takeDuty_hold (c : Channel) (after : Remaining → StateCode) (l : Link) (b : Byte) :
    s.takeDuty .hold c after l b =
      if (s.cur l).remaining = 0 then s
      else (s.setTh c b).setCur l ⟨after (decremented (s.cur l).remaining), decremented (s.cur l).remaining⟩ := by
  unfold State.takeDuty
  by_cases h : (s.cur l).remaining = 0
  · rw [if_pos ((starved_hold _).2 h), if_pos h]
  · rw [if_neg (fun h' => h ((starved_hold _).1 h')), if_neg h]

@[simp] theorem State.txlog_takeDuty (c : Channel) (after : Remaining → StateCode) (l : Link) (b : Byte)
    (m : Link) : (s.takeDuty .hold c after l b).txlog m = s.txlog m := by
  rw [State.takeDuty_hold]
  split <;> simp

/-- Everything a payload byte can do under the rules' policy (R96, R97). -/
theorem State.takePayload_hold (l : Link) (b : Byte) :
    s.takePayload .hold l b =
      if (s.cur l).remaining = 0 then s
      else if (s.cur l).remaining = 2 then s.setCur l ⟨0, 1⟩
      else (s.setCur l ⟨(s.cur l).state, (s.cur l).remaining - 1⟩).transmit (peer l) b := by
  unfold State.takePayload
  by_cases h : (s.cur l).remaining = 0
  · rw [if_pos ((starved_hold _).2 h), if_pos h]
  · rw [if_neg (fun h' => h ((starved_hold _).1 h')), if_neg h]
    by_cases h2 : (s.cur l).remaining = 2
    · simp only [(completes_decremented_iff _).2 h2, if_pos h2, if_true]
      rw [h2]; rfl
    · rw [if_neg (fun h' => h2 ((completes_decremented_iff _).1 h')), if_neg h2]; rfl

/-! ### Reset -/

@[simp] theorem State.cnt_resetRegisters : s.resetRegisters.cnt = 0 := rfl
@[simp] theorem State.th_resetRegisters (c : Channel) : s.resetRegisters.th c = 0 := by cases c <;> rfl
@[simp] theorem State.out_resetRegisters (c : Channel) : s.resetRegisters.out c = false := by cases c <;> rfl
@[simp] theorem State.cur_resetRegisters (l : Link) : s.resetRegisters.cur l = ⟨0, 0⟩ := by cases l <;> rfl
@[simp] theorem State.txlog_resetRegisters (l : Link) : s.resetRegisters.txlog l = [] := by cases l <;> rfl
@[simp] theorem State.input_resetRegisters : s.resetRegisters.input = s.input := rfl

end Sys2Proof.Machine
end

