-- ==== Sys2Proof/Laws/PerInstr.lean ====
section
/-!
SUPPORT. The per-instruction family `WordInRow`: an operation's dispatch word, where it has one, is selected by the row of
spec/opcode_table.json the operation stands in (spec/30_encoding.md R58).
-/
namespace Sys2Proof.Laws.WordInRow

/-- The operation's word lies in the operation's row. -/
def Statement (i : Instr) : Prop :=
  ∀ w : DispatchWord, encode i = some w → ∃ r : OpRow, tableRow i = some r ∧ r.selects w = true

theorem tick : Statement .tick := by
  intro w h
  cases h
  exact ⟨rowTick, rfl, rfl⟩

theorem pstart (tr tg tb : Byte) : Statement (.pstart tr tg tb) := by
  intro w h
  cases h

theorem matchR (t : Byte) : Statement (.matchR t) := by
  intro w h
  cases h

theorem matchG (t : Byte) : Statement (.matchG t) := by
  intro w h
  cases h

theorem matchB (t : Byte) : Statement (.matchB t) := by
  intro w h
  cases h

theorem rxLen (l : Link) (b : Byte) : Statement (.rxLen l b) := by
  intro w h
  cases h
  exact ⟨rowLen, rfl, (selects_receiveWord l 0 0 b).2 rfl⟩

theorem rxRed (l : Link) (b : Byte) : Statement (.rxRed l b) := by
  intro w h
  cases h
  exact ⟨rowRed, rfl, (selects_receiveWord l 1 1 b).2 rfl⟩

theorem rxGreen (l : Link) (b : Byte) : Statement (.rxGreen l b) := by
  intro w h
  cases h
  exact ⟨rowGreen, rfl, (selects_receiveWord l 2 2 b).2 rfl⟩

theorem rxBlue (l : Link) (b : Byte) : Statement (.rxBlue l b) := by
  intro w h
  cases h
  exact ⟨rowBlue, rfl, (selects_receiveWord l 3 3 b).2 rfl⟩

theorem rxPass (l : Link) (b : Byte) : Statement (.rxPass l b) := by
  intro w h
  cases h
  exact ⟨rowPass, rfl, (selects_receiveWord l 4 4 b).2 rfl⟩

theorem rxNop5 (l : Link) (b : Byte) : Statement (.rxNop5 l b) := by
  intro w h
  cases h
  exact ⟨rowNop5, rfl, (selects_receiveWord l 5 5 b).2 rfl⟩

theorem rxNop67 (l : Link) (x : BitVec 1) (b : Byte) : Statement (.rxNop67 l x b) := by
  intro w h
  cases h
  have hx : (3 : BitVec 2) ++ x = (6 : BitVec 3) ∨ (3 : BitVec 2) ++ x = (7 : BitVec 3) := by
    revert x; decide
  exact ⟨rowNop67, rfl, (rowNop67_selects_receiveWord l _ b).2 hx⟩

theorem emit (l : Link) (v : Byte) : Statement (.emit l v) := by
  intro w h
  cases h

theorem reset : Statement .reset := by
  intro w h
  cases h

end Sys2Proof.Laws.WordInRow
end

