-- ==== Sys2Proof/Laws/Step.lean ====
section
/-!
SUPPORT. What `exec`, `step` and `runEvents` compute, said once: proofs about steps and runs cite these.
-/
namespace Sys2Proof.Machine

/-! ### The arms of `exec` -/

theorem exec_tick (s : State) : exec .tick s = .next (s.tickWith .suppressed) := rfl
theorem exec_pstart (s : State) (tr tg tb : Byte) : exec (.pstart tr tg tb) s = .next (s.periodStart tr tg tb) := rfl
theorem exec_matchR (s : State) (t : Byte) : exec (.matchR t) s = .next (s.matchChannel .red t) := rfl
theorem exec_matchG (s : State) (t : Byte) : exec (.matchG t) s = .next (s.matchChannel .green t) := rfl
theorem exec_matchB (s : State) (t : Byte) : exec (.matchB t) s = .next (s.matchChannel .blue t) := rfl
theorem exec_rxLen (s : State) (l : Link) (b : Byte) : exec (.rxLen l b) s = .next (s.takeLength l b) := rfl
theorem exec_rxRed (s : State) (l : Link) (b : Byte) :
    exec (.rxRed l b) s = .next (s.takeDuty .hold .red (fun _ => 2) l b) := rfl
theorem exec_rxGreen (s : State) (l : Link) (b : Byte) :
    exec (.rxGreen l b) s = .next (s.takeDuty .hold .green (fun _ => 3) l b) := rfl
theorem exec_rxBlue (s : State) (l : Link) (b : Byte) :
    exec (.rxBlue l b) s = .next (s.takeDuty .hold .blue stateAfterBlue l b) := rfl
theorem exec_rxPass (s : State) (l : Link) (b : Byte) : exec (.rxPass l b) s = .next (s.takePayload .hold l b) := rfl
theorem exec_rxNop5 (s : State) (l : Link) (b : Byte) : exec (.rxNop5 l b) s = .next s := rfl
theorem exec_rxNop67 (s : State) (l : Link) (x : BitVec 1) (b : Byte) : exec (.rxNop67 l x b) s = .next s := rfl
theorem exec_emit (s : State) (l : Link) (v : Byte) : exec (.emit l v) s = .next (s.transmit l v) := rfl
theorem exec_reset (s : State) : exec .reset s = .next s.resetRegisters := rfl

/-! ### Selection -/

@[simp] theorem selectOperation_reset (s : State) : selectOperation s .reset = .ok .reset := rfl

theorem selectOperation_timer (s : State) (low : BitVec 12) :
    selectOperation s (.timer low) =
      if low = 0 then .ok .tick else .error (.reservedDispatchWord (timerWord low)) := by
  simp only [selectOperation, eventWord, decode_timerWord]
  split <;> rename_i h <;> by_cases h0 : low = 0 <;> simp_all

/-- The operation a received byte selects, by the receiving cursor's state (R90). -/
def receiveOperation (st : StateCode) (l : Link) (b : Byte) : Instr :=
  if st = 0 then .rxLen l b else if st = 1 then .rxRed l b else if st = 2 then .rxGreen l b
  else if st = 3 then .rxBlue l b else if st = 4 then .rxPass l b else if st = 5 then .rxNop5 l b
  else .rxNop67 l (st.extractLsb' 0 1) b

theorem selectOperation_rx (s : State) (l : Link) (b : Byte) :
    selectOperation s (.rx l b) = .ok (receiveOperation (s.cur l).state l b) := by
  have h : decode (receiveWord l (s.cur l).state b) = .ok (receiveOperation (s.cur l).state l b) := by
    rw [decode_receiveWord, receiveOperation]
    repeat' split
    all_goals rfl
  simp only [selectOperation, eventWord, h]

/-! ### Steps -/

theorem step_idle {s : State} (h : s.input = []) : step s = .next s := by
  simp only [step, h]

theorem step_event {s : State} {e : Event} {rest : List Event} {i : Instr} (h : s.input = e :: rest)
    (hi : selectOperation s e = .ok i) : step s = exec i (s.withInput rest) := by
  simp only [step, h, hi]

theorem step_refused {s : State} {e : Event} {rest : List Event} {r : Refusal} (h : s.input = e :: rest)
    (hr : selectOperation s e = .error r) : step s = .refused r := by
  simp only [step, h, hr]

theorem step_reset {s : State} {rest : List Event} (h : s.input = .reset :: rest) :
    step s = .next (s.withInput rest).resetRegisters :=
  step_event h rfl

theorem step_tick {s : State} {rest : List Event} (h : s.input = tickEvent :: rest) :
    step s = .next ((s.withInput rest).tickWith .suppressed) :=
  by
  have hi : selectOperation s tickEvent = .ok .tick := by rw [tickEvent, selectOperation_timer]; rfl
  rw [step_event h hi, exec_tick]

theorem step_rx {s : State} {l : Link} {b : Byte} {rest : List Event} (h : s.input = .rx l b :: rest) :
    step s = exec (receiveOperation (s.cur l).state l b) (s.withInput rest) :=
  step_event h (selectOperation_rx s l b)

/-! ### Bytes, by the state of the cursor that receives them -/

/-- What a received byte does to the registers and logs (R90 to R99). -/
def State.receiveByte (s : State) (l : Link) (b : Byte) : State :=
  if (s.cur l).state = 0 then s.takeLength l b
  else if (s.cur l).state = 1 then s.takeDuty .hold .red (fun _ => 2) l b
  else if (s.cur l).state = 2 then s.takeDuty .hold .green (fun _ => 3) l b
  else if (s.cur l).state = 3 then s.takeDuty .hold .blue stateAfterBlue l b
  else if (s.cur l).state = 4 then s.takePayload .hold l b
  else s

/-- The eight codes of a cursor's state (R55). -/
theorem stateCode_cases (st : StateCode) :
    st = 0 ∨ st = 1 ∨ st = 2 ∨ st = 3 ∨ st = 4 ∨ st = 5 ∨ st = 6 ∨ st = 7 := by
  revert st; decide

/-- The threshold a received byte writes, and that it writes no other (R93 to R95, R97). -/
theorem State.th_receiveByte (s : State) (l : Link) (b : Byte) (c : Channel) :
    (s.receiveByte l b).th c = if (s.cur l).dutyChannel = some c then b else s.th c := by
  simp only [State.receiveByte, State.takeLength, State.takeDuty_hold, State.takePayload_hold, Cursor.dutyChannel,
    StateCode.red, StateCode.green, StateCode.blue]
  by_cases hr : (s.cur l).remaining = 0 <;>
    rcases stateCode_cases (s.cur l).state with h | h | h | h | h | h | h | h <;>
    simp only [h, hr, if_true, if_false] <;> (repeat' split) <;> cases c <;> simp_all

/-- The byte a received byte makes the decoder emit, on which link, and that nothing else is emitted (R92, R96, R121). -/
theorem State.txlog_receiveByte (s : State) (l m : Link) (b : Byte) :
    (s.receiveByte l b).txlog m =
      if (s.cur l).emissionLink l b = some m then
        s.txlog m ++ [if (s.cur l).state = 0 then headerByte b else b]
      else s.txlog m := by
  have hh : (if 5 ≤ b.toNat then peer l else l) = headerLink l b := by
    by_cases h : 5 ≤ b.toNat
    · rw [headerLink_large l h, if_pos h]
    · rw [headerLink_small l (by omega), if_neg h]
  simp only [Cursor.emissionLink, StateCode.awaitLength, StateCode.passthrough, hh]
  rcases stateCode_cases (s.cur l).state with h | h | h | h | h | h | h | h
  · simp [State.receiveByte, State.takeLength, h, eq_comm]
  case inr.inr.inr.inr.inl =>
    simp only [State.receiveByte, State.takePayload_hold, h]
    by_cases h0 : (s.cur l).remaining = 0
    · simp [h0]
    · have h0' : ¬ (s.cur l).remaining = 0#9 := h0
      by_cases h2 : (s.cur l).remaining = 2
      · simp [h2]
      · have h2' : ¬ (s.cur l).remaining = 2#9 := h2
        simp [h0', h2', eq_comm]
  all_goals simp [State.receiveByte, h]
theorem exec_receiveOperation (s : State) (l : Link) (b : Byte) :
    exec (receiveOperation (s.cur l).state l b) s = .next (s.receiveByte l b) := by
  unfold receiveOperation State.receiveByte
  repeat' split
  all_goals rfl

theorem step_receive {s : State} {l : Link} {b : Byte} {rest : List Event} (h : s.input = .rx l b :: rest) :
    step s = .next ((s.withInput rest).receiveByte l b) := by
  rw [step_rx h, ← exec_receiveOperation (s.withInput rest), State.cur_withInput]

/-! ### Runs -/

@[simp] theorem runEvents_nil (s : State) : runEvents [] s = .next (s.withInput []) := rfl

/-- `Host.Core.run` of the block, when its first step goes on. -/
theorem run_succ_of_next {s t : State} (k : Nat) (h : step s = .next t) :
    Host.Core.run Sys2Proof.core (k + 1) s = Host.Core.run Sys2Proof.core k t := by
  have h' : Sys2Proof.core.step s = .next t := h
  refine (Host.Core.run.eq_2 Sys2Proof.core s k).trans ?_
  rw [h']

/-- `Host.Core.run` of the block, when its first step is refused. -/
theorem run_succ_of_refused {s : State} {r : Refusal} (k : Nat) (h : step s = .refused r) :
    Host.Core.run Sys2Proof.core (k + 1) s = .refused r := by
  have h' : Sys2Proof.core.step s = .refused r := h
  refine (Host.Core.run.eq_2 Sys2Proof.core s k).trans ?_
  rw [h']

/-- A run takes the registers of its state only: the coming events it holds do not matter. -/
theorem runEvents_congr {s t : State} (es : List Event) (hth : ∀ c, s.th c = t.th c) (hcnt : s.cnt = t.cnt)
    (hout : ∀ c, s.out c = t.out c) (hcur : ∀ l, s.cur l = t.cur l) (htx : ∀ l, s.txlog l = t.txlog l) :
    runEvents es s = runEvents es t := by
  have h : s.withInput es = t.withInput es :=
    by
    apply State.eq_of_accessors <;> simp [hth, hcnt, hout, hcur, htx]
  rw [runEvents, runEvents, h]

/-- A run's first step, when it goes on. -/
theorem runEvents_cons_of_next {e : Event} {es : List Event} {s t : State}
    (h : step (s.withInput (e :: es)) = .next t) (hin : t.input = es) :
    runEvents (e :: es) s = runEvents es t := by
  subst hin
  exact run_succ_of_next _ h

/-- A run that meets a reserved timer word is refused there. -/
theorem runEvents_reserved {low : BitVec 12} (h : low ≠ 0) (es : List Event) (s : State) :
    runEvents (.timer low :: es) s = .refused (.reservedDispatchWord (timerWord low)) :=
  run_succ_of_refused _ (step_refused rfl (by rw [selectOperation_timer, if_neg h]))

@[simp] theorem runEvents_reset (es : List Event) (s : State) :
    runEvents (.reset :: es) s = runEvents es s.resetRegisters := by
  rw [runEvents_cons_of_next (step_reset rfl) rfl]
  exact runEvents_congr es (by simp) (by simp) (by simp) (by simp) (by simp)

@[simp] theorem runEvents_tick (es : List Event) (s : State) :
    runEvents (tickEvent :: es) s = runEvents es (s.tickWith .suppressed) := by
  rw [runEvents_cons_of_next (step_tick rfl) (by simp)]
  exact runEvents_congr es (by simp) (by simp) (by simp [State.out_tick]) (by simp) (by simp)

/-- What the coming events are does not change what a byte does to the rest. -/
theorem State.receiveByte_withInput (s : State) (l : Link) (b : Byte) (es : List Event) :
    (s.withInput es).receiveByte l b = (s.receiveByte l b).withInput es := by
  apply State.eq_of_accessors <;> (try intro m) <;>
    simp only [State.receiveByte, State.takeLength, State.takeDuty_hold, State.takePayload_hold, State.cur_withInput] <;>
    (repeat' split) <;> simp

@[simp] theorem State.input_receiveByte (s : State) (l : Link) (b : Byte) : (s.receiveByte l b).input = s.input := by
  simp only [State.receiveByte, State.takeLength, State.takeDuty_hold, State.takePayload_hold]
  repeat' split
  all_goals simp

@[simp] theorem runEvents_rx (es : List Event) (s : State) (l : Link) (b : Byte) :
    runEvents (.rx l b :: es) s = runEvents es (s.receiveByte l b) := by
  rw [runEvents_cons_of_next (step_receive rfl) (by simp), State.withInput_withInput, State.receiveByte_withInput]
  exact runEvents_congr es (by simp) (by simp) (by simp) (by simp) (by simp)

/-- A run of `as` followed by `bs` is the run of `bs` from where `as` ends. -/
theorem runEvents_append {as : List Event} (bs : List Event) {s t : State} (h : runEvents as s = .next t) :
    runEvents (as ++ bs) s = runEvents bs t := by
  induction as generalizing s with
  | nil =>
    cases h
    exact runEvents_congr bs (by simp) (by simp) (by simp) (by simp) (by simp)
  | cons e as ih =>
    rw [List.cons_append]
    cases e with
    | reset => rw [runEvents_reset] at h ⊢; exact ih h
    | timer low =>
      by_cases h0 : low = 0
      · subst h0
        change runEvents (tickEvent :: as) s = _ at h
        change runEvents (tickEvent :: (as ++ bs)) s = _
        rw [runEvents_tick] at h ⊢
        exact ih h
      · rw [runEvents_reserved h0] at h
        cases h
    | rx l b => rw [runEvents_rx] at h ⊢; exact ih h

/-- A run of one event is one step. -/
theorem runEvents_single {e : Event} {s t : State} (h : step (s.withInput [e]) = .next t) (hin : t.input = []) :
    runEvents [e] s = .next t := by
  rw [runEvents_cons_of_next h hin, runEvents_nil, ← hin]
  rfl

end Sys2Proof.Machine
end

