-- ==== Sys2Proof/Tests/Slice0.lean ====
section
/-!
SUPPORT. The model's own tests. Words and expected results are those of spec/95_test_vectors.md (vector numbers in the
docstrings) or written out from the rule named; then, for every obligation with hypotheses, a concrete case that meets them.
-/
namespace Sys2Proof.Tests
open Sys2Proof Sys2Proof.Machine

/-! ### Helpers -/

/-- The state an outcome goes on in. -/
def nextState : Host.Outcome State Fault Refusal → Option State
  | .next t => some t
  | .fault _ => none
  | .refused _ => none

/-- The counter, thresholds and outputs of an outcome's state. -/
def pwmView (o : Host.Outcome State Fault Refusal) : Option (Nat × (Byte × Byte × Byte) × (Bool × Bool × Bool)) :=
  (nextState o).map fun t => (t.cnt.val, (t.thRed, t.thGreen, t.thBlue), (t.outRed, t.outGreen, t.outBlue))

/-- The thresholds, both cursors and both logs of an outcome's state. -/
def linkView (o : Host.Outcome State Fault Refusal) :
    Option ((Byte × Byte × Byte) × Cursor × Cursor × List Byte × List Byte) :=
  (nextState o).map fun t => ((t.thRed, t.thGreen, t.thBlue), t.curUsb, t.curPin, t.txUsb, t.txPin)

/-- The reset state with another counter, other thresholds and other outputs. -/
def pwmState (n : Count) (r g b : Byte) (x y z : Bool) : State :=
  { State.reset with cnt := n, thRed := r, thGreen := g, thBlue := b, outRed := x, outGreen := y, outBlue := z }

/-- The reset state with another cursor on link `l`, and coming events. -/
def linkState (l : Link) (st : StateCode) (r : Remaining) (es : List Event) : State :=
  (State.reset.setCur l ⟨st, r⟩).withInput es

/-! ### WellFormed: an ill-formed term for each check, refused -/

theorem test_wf_matchR_zero_refused : Instr.wf (.matchR 0) = false ∧ Instr.wf (.matchR 1) = true := by decide
theorem test_wf_matchG_zero_refused : Instr.wf (.matchG 0) = false ∧ Instr.wf (.matchG 255) = true := by decide
theorem test_wf_matchB_zero_refused : Instr.wf (.matchB 0) = false ∧ Instr.wf (.matchB 254) = true := by decide
theorem test_wf_timer_event_refused : (Event.timer 1).wf = false ∧ tickEvent.wf = true := by decide
theorem test_wf_packet_length_two_refused : Packet.wf ⟨2, 0x11, 0x22, 0x33, []⟩ = false := by decide
theorem test_wf_packet_byte_count_refused :
    Packet.wf ⟨5, 0x11, 0x22, 0x33, [0xAA]⟩ = false ∧ Packet.wf ⟨5, 0x11, 0x22, 0x33, [0xAA, 0xBB]⟩ = true := by decide

/-! ### Decoding: words written out from R57, one for every operation that has one -/

/-- R57: all 13 bits 0. -/
theorem test_decode_tick : decode 0b0000000000000 = .ok .tick := by rfl
/-- `{1, 0, 000, 00000101}`, vector W3. -/
theorem test_decode_rxLen : decode 0b1000000000101 = .ok (.rxLen .usb 0x05) := by rfl
/-- `{1, 1, 001, 01000000}`, program P2 line 3. -/
theorem test_decode_rxRed : decode 0b1100101000000 = .ok (.rxRed .pin 0x40) := by rfl
/-- `{1, 0, 010, 01000001}`, vector W11. -/
theorem test_decode_rxGreen : decode 0b1001001000001 = .ok (.rxGreen .usb 0x41) := by rfl
/-- `{1, 0, 011, 01000010}`, vector W13. -/
theorem test_decode_rxBlue : decode 0b1001101000010 = .ok (.rxBlue .usb 0x42) := by rfl
/-- `{1, 1, 100, 10100100}`, program P2 line 6. -/
theorem test_decode_rxPass : decode 0b1110010100100 = .ok (.rxPass .pin 0xA4) := by rfl
/-- `{1, 0, 101, 00000000}`, vector W24. -/
theorem test_decode_rxNop5 : decode 0b1010100000000 = .ok (.rxNop5 .usb 0x00) := by rfl
/-- `{1, 1, 110, 10011001}`, vector W23; and state code 7. -/
theorem test_decode_rxNop67 : decode 0b1111010011001 = .ok (.rxNop67 .pin 0 0x99) ∧
    decode 0b1111110011001 = .ok (.rxNop67 .pin 1 0x99) := ⟨rfl, rfl⟩
/-- R60: `k == 0` with another bit set is refused, the lowest and the highest of them alike. -/
theorem test_decode_reserved_refused : decode 0b0000000000001 = .error .reservedTimerWord ∧
    decode 0b0100000000000 = .error .reservedTimerWord := ⟨rfl, rfl⟩
/-- R59, R57: a sub-operation and `RESET` have no word of their own. -/
theorem test_encode_without_word : encode (.pstart 1 2 3) = none ∧ encode (.matchR 1) = none ∧ encode (.matchG 1) = none ∧
    encode (.matchB 1) = none ∧ encode (.emit .usb 0) = none ∧ encode .reset = none := by decide
/-- The table's rows are 13-bit words in whole bytes; a word with a higher bit set is none. -/
theorem test_decodeTableWord : decodeTableWord 16 0x10FF = some (.rxLen .usb 0xFF) ∧ decodeTableWord 16 0x0001 = none ∧
    decodeTableWord 16 0x2000 = none := by decide

/-! ### One step of each operation -/

/-- V1. -/
theorem test_tick_advances :
    pwmView (exec .tick (pwmState 0 0 0 0 false false false)) = some (1, (0, 0, 0), (false, false, false)) := by decide
/-- V9. -/
theorem test_tick_three_matches : pwmView (exec .tick (pwmState 49 0x32 0x32 0x32 true true true)) =
    some (50, (0x32, 0x32, 0x32), (false, false, false)) := by decide
/-- V3: period start, inside the tick that wraps. -/
theorem test_pstart_at_wrap : pwmView (exec .tick (pwmState 254 0x0A 0 0xFF false false true)) =
    some (0, (0x0A, 0, 0xFF), (true, false, true)) := by decide
/-- V8: a zero threshold neither asserts nor clears. -/
theorem test_pstart_zero_threshold_keeps :
    pwmView (exec (.pstart 0 0 0) (pwmState 254 0 0 0 true false false)) = some (254, (0, 0, 0), (true, false, false)) := by
  decide
/-- V4. -/
theorem test_matchR_at_100 : pwmView (exec .tick (pwmState 99 0x64 0 0 true false false)) =
    some (100, (0x64, 0, 0), (false, false, false)) := by decide
/-- R73: the guard for a threshold of 255. -/
theorem test_matchR_guard : pwmView (exec (.matchR 0xFF) (pwmState 7 0xFF 0 0 true true true)) =
    some (7, (0xFF, 0, 0), (true, true, true)) := by decide
/-- V5. -/
theorem test_matchG_shortest_pulse : pwmView (exec .tick (pwmState 0 0 0x01 0 false true false)) =
    some (1, (0, 0x01, 0), (false, false, false)) := by decide
/-- V6. -/
theorem test_matchB_longest_pulse : pwmView (exec .tick (pwmState 253 0 0 0xFE false false true)) =
    some (254, (0, 0, 0xFE), (false, false, false)) := by decide
/-- V7, its first tick. -/
theorem test_matchB_never_at_255 : pwmView (exec .tick (pwmState 253 0 0 0xFF false false true)) =
    some (254, (0, 0, 0xFF), (false, false, true)) := by decide
/-- W6. -/
theorem test_rxLen_largest : linkView (step (linkState .usb 0 0 [.rx .usb 0xFF])) =
    some ((0, 0, 0), ⟨1, 256⟩, ⟨0, 0⟩, [], [0xFC]) := by decide
/-- W5. -/
theorem test_rxLen_own_link : linkView (step (linkState .pin 0 0 [.rx .pin 0x04])) =
    some ((0, 0, 0), ⟨0, 0⟩, ⟨1, 5⟩, [], [0x00]) := by decide
/-- W8. -/
theorem test_rxRed_to_zero : linkView (step (linkState .usb 1 1 [.rx .usb 0x11])) =
    some ((0x11, 0, 0), ⟨2, 0⟩, ⟨0, 0⟩, [], []) := by decide
/-- W22. -/
theorem test_rxRed_underflow : linkView (step (linkState .usb 1 0 [.rx .usb 0x11])) =
    some ((0, 0, 0), ⟨1, 0⟩, ⟨0, 0⟩, [], []) := by decide
/-- W11. -/
theorem test_rxGreen : linkView (step (linkState .usb 2 8 [.rx .usb 0x41])) =
    some ((0, 0x41, 0), ⟨3, 7⟩, ⟨0, 0⟩, [], []) := by decide
/-- W12. -/
theorem test_rxGreen_underflow : linkView (step (linkState .usb 2 0 [.rx .usb 0x22])) =
    some ((0, 0, 0), ⟨2, 0⟩, ⟨0, 0⟩, [], []) := by decide
/-- W14. -/
theorem test_rxBlue_completes : linkView (step (linkState .usb 3 2 [.rx .usb 0x42])) =
    some ((0, 0, 0x42), ⟨0, 1⟩, ⟨0, 0⟩, [], []) := by decide
/-- W15. -/
theorem test_rxBlue_to_zero_passes : linkView (step (linkState .usb 3 1 [.rx .usb 0x42])) =
    some ((0, 0, 0x42), ⟨4, 0⟩, ⟨0, 0⟩, [], []) := by decide
/-- W19. -/
theorem test_rxPass_relays : linkView (step (linkState .pin 4 6 [.rx .pin 0x00])) =
    some ((0, 0, 0), ⟨0, 0⟩, ⟨4, 5⟩, [0x00], []) := by decide
/-- W18. -/
theorem test_rxPass_discards_last : linkView (step (linkState .usb 4 2 [.rx .usb 0xBB])) =
    some ((0, 0, 0), ⟨0, 1⟩, ⟨0, 0⟩, [], []) := by decide
/-- W24. -/
theorem test_rxNop5 : linkView (step (linkState .usb 5 0 [.rx .usb 0x00])) =
    some ((0, 0, 0), ⟨5, 0⟩, ⟨0, 0⟩, [], []) := by decide
/-- W23. -/
theorem test_rxNop67 : linkView (step (linkState .pin 6 17 [.rx .pin 0x99])) =
    some ((0, 0, 0), ⟨0, 0⟩, ⟨6, 17⟩, [], []) := by decide
/-- R122. -/
theorem test_emit_appends : linkView ((exec (.emit .pin 0x7E) { State.reset with txPin := [0x01] })) =
    some ((0, 0, 0), ⟨0, 0⟩, ⟨0, 0⟩, [], [0x01, 0x7E]) := by decide
/-- R150. -/
theorem test_reset_writes_all : nextState (step { State.reset with
    cnt := 9, thRed := 1, outBlue := true, curPin := ⟨4, 3⟩, txUsb := [1], input := [.reset] }) = some State.reset := by decide
/-- A table word placed by `withFetchWord` is what the next step runs: W17's word on the reset state; and R60's refusal. -/
theorem test_placed_word_runs : linkView (step (State.reset.withFetchWord 16 0x1AB0)) =
    linkView (exec (.rxGreen .pin 0xB0) (linkState .pin 2 0 [])) ∧
    pwmView (step (State.reset.withFetchWord 16 0)) = some (1, (0, 0, 0), (false, false, false)) ∧
    step (State.reset.withFetchWord 16 0x0005) = .refused (.reservedDispatchWord 0x0005) := ⟨by decide, by decide, rfl⟩

/-! ### Witnesses: the hypotheses of the obligations are met, each clause at a boundary of its range -/

theorem test_witness_DecodeOfEncodeGivesOperation : encode .tick = some 0x0000 ∧ encode (.rxLen .usb 0) = some 0x1000 ∧
    encode (.rxRed .pin 0xFF) = some 0x19FF ∧ encode (.rxGreen .usb 0xFF) = some 0x12FF ∧
    encode (.rxBlue .pin 0) = some 0x1B00 ∧ encode (.rxPass .pin 0xFF) = some 0x1CFF ∧
    encode (.rxNop5 .usb 0) = some 0x1500 ∧ encode (.rxNop67 .pin 1 0xFF) = some 0x1FFF := by decide
theorem test_witness_EncodeOfDecodeGivesWord : decode 0x1FFF = .ok (.rxNop67 .pin 1 0xFF) := by rfl
theorem test_witness_OneTableRowSelectsEachReceiveWord : dwKind 0x1000 = 1 ∧ dwKind 0x1FFF = 1 := by decide
theorem test_witness_DecodeRefusesExactlyReservedTimerWords : dwKind 0x0FFF = 0 ∧ dwLow 0x0FFF ≠ 0 := by decide

theorem test_witness_StepRunsDecodedOperation :
    (linkState .usb 4 2 [.rx .usb 0xBB]).input = .rx .usb 0xBB :: [] ∧
    eventWord (linkState .usb 4 2 [.rx .usb 0xBB]) (.rx .usb 0xBB) = some 0x14BB ∧
    decode 0x14BB = .ok (.rxPass .usb 0xBB) := ⟨rfl, by decide, rfl⟩
theorem test_witness_StepRunsDecodedOperation_ports :
    (State.reset.withInput [.reset]).input = .reset :: [] ∧ (State.reset.withInput [tickEvent]).input = tickEvent :: [] := by
  decide
theorem test_witness_ReceivedByteRunsOperationOfCursorState (st : StateCode) :
    (linkState .pin st 1 [.rx .pin 7]).input = .rx .pin 7 :: [] ∧ ((linkState .pin st 1 [.rx .pin 7]).cur .pin).state = st :=
  ⟨rfl, rfl⟩
theorem test_witness_ReservedTimerWordIsRefused :
    (State.reset.withInput [.timer 0xFFF]).input = .timer 0xFFF :: [] ∧ (0xFFF : BitVec 12) ≠ 0 := by decide
theorem test_witness_IdleBlockKeepsItsState : State.reset.input = [] := by decide
theorem test_witness_NoOperationFaults :
    (∀ e ∈ (State.reset.withInput [tickEvent, .timer 1]).input.head?, e.wf = true) ∧
    ∀ e ∈ State.reset.input.head?, e.wf = true := by decide
theorem test_witness_EveryEventSequenceCompletes :
    ∀ e ∈ [tickEvent, .rx .usb 3, .reset, .rx .pin 0xFF], Event.wf e = true := by decide
theorem test_witness_InfiniteEventSequenceHasOneRun :
    ∀ n : Nat, (if n % 2 = 0 then tickEvent else .rx .usb 0xFF).wf = true := by
  intro n
  split <;> decide
theorem test_witness_PlacedTableWordRunsNext : decodeTableWord 16 0x1F00 = some (.rxNop67 .pin 1 0) ∧
    decodeTableWord 16 0 = some .tick := by decide

theorem test_witness_CounterCountsModulo255 : Instr.emit .usb 0 ≠ .tick ∧ Instr.emit .usb 0 ≠ .reset ∧
    exec (.emit .usb 0) State.reset = .next { State.reset with txUsb := [0] } := ⟨by decide, by decide, rfl⟩
theorem test_witness_PeriodStartAssertsNonzeroChannels :
    .pstart 0x0A 0 0xFF ∈ subOperations .tick (pwmState 254 0x0A 0 0xFF false false true) := by decide
theorem test_witness_MatchDeassertsOnlyItsChannel :
    .matchR 1 ∈ subOperations .tick (pwmState 0 1 1 1 true true true) ∧
    .matchG 254 ∈ subOperations .tick (pwmState 253 0 254 0 true true true) ∧
    .matchB 254 ∈ subOperations .tick (pwmState 253 0 254 254 true true true) := by decide
theorem test_witness_BoundaryThresholdsProduceNoMatch :
    .matchR 1 ∈ subOperations .tick (pwmState 0 1 0 0 true true true) ∧
    .matchB 254 ∈ subOperations .tick (pwmState 253 0 0 254 true true true) := by decide
theorem test_witness_TickPerformsItsSubOperations :
    (0 : Count).val = ((pwmState 254 0 0 0 false false false).cnt.val + 1) % 255 ∧
    (254 : Count).val = ((pwmState 253 0 0 0 false false false).cnt.val + 1) % 255 := by decide
theorem test_witness_ChannelIsAssertedBelowItsThreshold :
    (pwmState 254 1 254 0 false false false).cnt.val = 254 ∧
    1 ≤ ((pwmState 254 1 254 0 false false false).th .red).toNat ∧
    ((pwmState 254 1 254 0 false false false).th .green).toNat ≤ 254 ∧ 254 < 255 := by decide
theorem test_witness_BoundaryThresholdsHoldTheirOutputs :
    (step ((pwmState 254 0 255 255 false true false).withInput [tickEvent]) =
      .next (pwmState 0 0 255 255 false true true)) ∧
    (pwmState 254 0 255 255 false true false).th .red = 0 ∧ (pwmState 254 0 255 255 false true false).out .red = false ∧
    (pwmState 254 0 255 255 false true false).th .green = 255 ∧ (pwmState 254 0 255 255 false true false).out .green = true ∧
    (pwmState 254 0 255 255 false true false).th .blue = 255 ∧
    ((pwmState 254 0 255 255 false true false).withInput [tickEvent]).input.head? = some tickEvent ∧
    some tickEvent ≠ some Event.reset := ⟨rfl, by decide⟩
theorem test_witness_ClosedFormOfOutputIsKept :
    (pwmState 0 1 0 0 true false false).out .red = decide ((1 : Byte) ≠ 0 ∧ 0 < (1 : Byte).toNat) ∧
    step ((pwmState 0 1 0 0 true false false).withInput [tickEvent]) = .next (pwmState 1 1 0 0 false false false) ∧
    (pwmState 1 1 0 0 false false false).th .red = (pwmState 0 1 0 0 true false false).th .red := ⟨by decide, rfl, rfl⟩
theorem test_witness_ChannelIgnoresOtherChannels :
    (pwmState 0 1 0 0 true false false).cnt = (pwmState 0 1 9 9 true true true).cnt ∧
    (pwmState 0 1 0 0 true false false).th .red = (pwmState 0 1 9 9 true true true).th .red ∧
    (pwmState 0 1 0 0 true false false).out .red = (pwmState 0 1 9 9 true true true).out .red ∧
    runEvents (List.replicate 1 tickEvent) (pwmState 0 1 0 0 true false false) =
      .next (pwmState 1 1 0 0 false false false) ∧
    runEvents (List.replicate 1 tickEvent) (pwmState 0 1 9 9 true true true) =
      .next (pwmState 1 1 9 9 false true true) := ⟨rfl, rfl, rfl, rfl, rfl⟩
theorem test_witness_FirstPeriodAfterResetIsDark :
    (∀ e ∈ Event.rx .usb 3 :: List.replicate 254 tickEvent, e.wf = true ∧ e ≠ .reset) ∧
    (Event.rx .usb 3 :: List.replicate 254 tickEvent).count tickEvent = 254 := by
  refine ⟨?_, ?_⟩
  · intro e he
    rcases List.mem_cons.mp he with h | h
    · subst h; decide
    · rw [List.eq_of_mem_replicate h]; decide
  · rw [List.count_cons_of_ne (by decide), List.count_replicate_self]
theorem test_witness_OutputForRestOfPeriod :
    (pwmState 254 0 7 0 true false false).cnt.val + 0 ≤ 254 ∧ (pwmState 0 0 7 0 true false false).cnt.val + 254 ≤ 254 ∧
    (pwmState 0 0 7 0 true false false).th .green ≠ 0 ∧ (pwmState 0 0 7 0 true false false).th .red = 0 := by decide
theorem test_witness_AssertedOutputStaysOnAtZeroThreshold :
    (pwmState 50 0 0 0 true false false).th .red = 0 ∧ (pwmState 50 0 0 0 true false false).out .red = true := by decide
theorem test_witness_ZeroMatchPoliciesAgreeOnClearOutputs :
    (∀ c, (pwmState 254 0 0 1 false false true).th c = 0 → (pwmState 254 0 0 1 false false true).out c = false) ∧
    (pwmState 254 0 0 1 true false true).th .red = 0 ∧ (pwmState 254 0 0 1 true false true).cnt.val = 254 ∧
    (pwmState 254 0 0 1 true false true).out .red = true :=
  ⟨fun c => by cases c <;> decide, by decide⟩

theorem test_witness_LengthByteLoadsCursorAndEmitsHeader :
    5 ≤ (5 : Byte).toNat ∧ 5 ≤ (255 : Byte).toNat ∧ (4 : Byte).toNat ≤ 4 ∧ (0 : Byte).toNat ≤ 4 := by decide
theorem test_witness_UnrecognisedStateDropsByte :
    (linkState .usb 5 0 [.rx .usb 1]).input = .rx .usb 1 :: [] ∧ 5 ≤ ((linkState .usb 5 0 [.rx .usb 1]).cur .usb).state.toNat ∧
    5 ≤ ((linkState .pin 7 0 [.rx .pin 1]).cur .pin).state.toNat := by decide
theorem test_witness_DecodersEmitThroughTheRouter :
    ((linkState .usb 4 0 []).cur .usb).remaining = 0 ∧ ((linkState .usb 4 2 []).cur .usb).remaining ≠ 0 := by decide
theorem test_witness_ByteFollowsTransitionTable :
    (linkState .usb 3 2 [.rx .usb 0x42]).input = .rx .usb 0x42 :: [] ∧
    (linkState .usb 3 2 [.rx .usb 0x42]).cur .usb = ⟨3, 2⟩ ∧
    step (linkState .usb 3 2 [.rx .usb 0x42]) = .next { linkState .usb 0 1 [] with thBlue := 0x42 } := ⟨rfl, rfl, rfl⟩
theorem test_witness_EmissionsFollowRoutingTable :
    step (linkState .usb 0 0 [.rx .usb 5]) = .next { linkState .usb 1 6 [] with txPin := [2] } ∧
    step (linkState .usb 0 0 [.rx .usb 4]) = .next { linkState .usb 1 5 [] with txUsb := [0] } ∧
    step (linkState .usb 4 3 [.rx .usb 0xAA]) = .next { linkState .usb 4 2 [] with txPin := [0xAA] } ∧
    step (linkState .usb 3 1 [.rx .usb 9]) = .next { linkState .usb 4 0 [] with thBlue := 9 } ∧
    step (State.reset.withInput [tickEvent]) = .next { State.reset with cnt := 1 } := ⟨rfl, rfl, rfl, rfl, rfl⟩
theorem test_witness_DecoderStepTouchesOnlyItsOwn :
    (linkState .usb 1 1 [.rx .usb 9]).input = .rx .usb 9 :: [] ∧
    step (linkState .usb 1 1 [.rx .usb 9]) = .next { linkState .usb 2 0 [] with thRed := 9 } ∧
    Cursor.dutyChannel ⟨1, 1⟩ = some .red ∧ Cursor.dutyChannel ⟨1, 1⟩ ≠ some .blue ∧
    Cursor.emissionLink ⟨1, 1⟩ .usb 9 ≠ some .pin := ⟨rfl, rfl, by decide⟩
theorem test_witness_DecoderStepTouchesOnlyItsOwn_emits :
    step (linkState .usb 0 1 [.rx .usb 4]) = .next { linkState .usb 1 5 [] with txUsb := [0] } ∧
    Cursor.emissionLink ⟨0, 1⟩ .usb 4 = some .usb ∧ Cursor.emissionLink ⟨0, 1⟩ .usb 5 = some .pin ∧
    Cursor.emissionLink ⟨4, 3⟩ .pin 0 = some .usb := ⟨rfl, by decide⟩
theorem test_witness_OperationsWriteOnlyTheirRegisters :
    exec (.rxLen .usb 5) State.reset = .next { State.reset with curUsb := ⟨1, 6⟩, txPin := [2] } ∧
    Instr.rxLen .usb 5 ≠ .reset ∧ Instr.rxLen .usb 5 ≠ .tick ∧ (∀ l b, Instr.rxLen .usb 5 ≠ .rxRed l b) ∧
    (∀ b, Instr.rxLen .usb 5 ≠ .rxRed .pin b) ∧ (∀ a b c, Instr.rxLen .usb 5 ≠ .pstart a b c) :=
  ⟨rfl, by simp, by simp, by simp, by simp, by simp⟩
/-- The hypotheses on `TXLOG[USB]` hold of a length byte 5 on the USB link, which goes out on the PIN link. -/
theorem test_witness_OperationsWriteOnlyTheirRegisters_logs :
    (∀ b, Instr.rxLen .usb 5 ≠ .rxPass (peer .usb) b) ∧
    (∀ b : Byte, 5 ≤ b.toNat → Instr.rxLen .usb 5 ≠ .rxLen (peer .usb) b) ∧
    (∀ b : Byte, b.toNat ≤ 4 → Instr.rxLen .usb 5 ≠ .rxLen .usb b) ∧ ∀ v, Instr.rxLen .usb 5 ≠ .emit .usb v := by
  refine ⟨by simp, by simp [peer], fun b hb h => ?_, by simp⟩
  cases h
  exact absurd hb (by decide)
/-- And of a length byte 4 for `TXLOG[PIN]`. -/
theorem test_witness_OperationsWriteOnlyTheirRegisters_own :
    ∀ b : Byte, 5 ≤ b.toNat → Instr.rxLen .usb 4 ≠ .rxLen (peer .pin) b := by
  intro b hb h
  cases h
  exact absurd hb (by decide)
theorem test_witness_StalledLinkIgnoresBytes :
    ((linkState .usb 4 0 [.rx .usb 3]).cur .usb).stalled = true ∧ (linkState .usb 4 0 [.rx .usb 3]).input = .rx .usb 3 :: [] ∧
    ((linkState .usb 5 511 []).cur .usb).stalled = true ∧
    ∀ e ∈ [tickEvent, .rx .usb 3, .rx .pin 3], Event.wf e = true ∧ e ≠ .reset := by decide
theorem test_witness_UnderflowPolicyMattersOnlyAtZero :
    ((linkState .usb 4 1 []).cur .usb).remaining ≠ 0 ∧ ((linkState .pin 1 511 []).cur .pin).remaining ≠ 0 := by decide

theorem test_witness_ShortPacketsStallTheLink : (State.reset.cur .usb).state = 0 := by decide
theorem test_witness_PacketEndsAfterDeclaredLength :
    Packet.wf ⟨3, 0x10, 0x80, 0xFF, []⟩ = true ∧ (State.reset.cur .pin).state = 0 ∧ 0 < 3 ∧ 3 ≤ (3 : Byte).toNat := by decide
theorem test_witness_PacketSetsThresholdsAndRelaysPayload :
    Packet.wf ⟨5, 0x11, 0x22, 0x33, [0xAA, 0xBB]⟩ = true ∧ Packet.wf ⟨4, 0x11, 0x22, 0x33, [0xAA]⟩ = true ∧
    (State.reset.cur .usb).state = 0 := by decide
theorem test_witness_PacketSetsThresholdsAndRelaysPayload_longest :
    Packet.wf ⟨255, 0, 0, 0, List.replicate 252 0⟩ = true := by
  rw [Packet.wf, List.length_replicate]; decide
theorem test_witness_RepeatedPacketLeavesSameThresholds :
    (State.reset.cur .usb).state = 0 ∧ Packet.wf ⟨3, 0x10, 0x80, 0xFF, []⟩ = true := by decide
theorem test_witness_RelayedStreamIsOneByteShort :
    Packet.wf ⟨5, 0x11, 0x22, 0x33, [0xAA, 0xBB]⟩ = true ∧ (5 : Byte).toNat = 5 ∧
    Packet.wf ⟨6, 0x01, 0x02, 0x03, [0xE1, 0xE2, 0xE3]⟩ = true ∧ 6 ≤ (6 : Byte).toNat ∧ (State.reset.cur .pin).state = 0 := by
  decide

theorem test_witness_CursorDependsOnOwnBytesOnly :
    (∀ e ∈ [tickEvent, .rx .usb 3] ++ [.rx .usb 3, .rx .pin 9], e ≠ Event.reset) ∧
    bytesOn .usb [tickEvent, .rx .usb 3] = bytesOn .usb [.rx .usb 3, .rx .pin 9] ∧
    (nextState (runEvents [tickEvent, .rx .usb 3] State.reset)).isSome = true ∧
    (nextState (runEvents [.rx .usb 3, .rx .pin 9] State.reset)).isSome = true := by decide
theorem test_witness_LaterDutyByteWins :
    ∀ m, (((linkState .usb 1 1 []).setCur .pin ⟨1, 256⟩).cur m).state = 1 ∧
      (((linkState .usb 1 1 []).setCur .pin ⟨1, 256⟩).cur m).remaining ≠ 0 := fun m => by cases m <;> decide
theorem test_witness_LaterDutyByteWins_green :
    ∀ m, (((linkState .usb 2 2 []).setCur .pin ⟨2, 1⟩).cur m).state = 2 ∧
      (((linkState .usb 2 2 []).setCur .pin ⟨2, 1⟩).cur m).remaining ≠ 0 := fun m => by cases m <;> decide
theorem test_witness_LaterDutyByteWins_blue :
    ∀ m, (((linkState .usb 3 2 []).setCur .pin ⟨3, 1⟩).cur m).state = 3 ∧
      (((linkState .usb 3 2 []).setCur .pin ⟨3, 1⟩).cur m).remaining ≠ 0 := fun m => by cases m <;> decide
theorem test_witness_TickCommutesWithNonDutyByte :
    ((linkState .usb 0 0 []).cur .usb).dutyChannel = none ∧ ((linkState .usb 4 2 []).cur .usb).dutyChannel = none ∧
    ((linkState .pin 3 0 []).cur .pin).dutyChannel = none ∧ ((linkState .usb 7 2 []).cur .usb).dutyChannel = none := by decide
/-- Two duty bytes of different colours. -/
theorem test_witness_BytesOnDifferentLinksCommute :
    (∀ c, ¬ (Cursor.dutyChannel ⟨1, 4⟩ = some c ∧ Cursor.dutyChannel ⟨3, 2⟩ = some c)) ∧
    ∀ m, ¬ (Cursor.emissionLink ⟨1, 4⟩ .usb 7 = some m ∧ Cursor.emissionLink ⟨3, 2⟩ .pin 7 = some m) :=
  ⟨fun c => by cases c <;> decide, fun m => by cases m <;> decide⟩
/-- Two length bytes that go out on different links, and two bytes in one unrecognised code. -/
theorem test_witness_BytesOnDifferentLinksCommute_lengths :
    (∀ m, ¬ (Cursor.emissionLink ⟨0, 0⟩ .usb 4 = some m ∧ Cursor.emissionLink ⟨0, 0⟩ .pin 0 = some m)) ∧
    ∀ m, ¬ (Cursor.emissionLink ⟨7, 1⟩ .usb 4 = some m ∧ Cursor.emissionLink ⟨7, 1⟩ .pin 0 = some m) :=
  ⟨fun m => by cases m <;> decide, fun m => by cases m <;> decide⟩
theorem test_witness_StepKeepsCursorsLegal :
    (linkState .usb 0 1 [.rx .usb 0xFF]).legal = true ∧
    step (linkState .usb 0 1 [.rx .usb 0xFF]) = .next { linkState .usb 1 256 [] with txPin := [0xFC] } := ⟨by decide, rfl⟩

/-! ### The invariant refuses what R25 rules out -/

theorem test_illegal_cursors_refused :
    Cursor.legal ⟨5, 0⟩ = false ∧ Cursor.legal ⟨1, 257⟩ = false ∧ Cursor.legal ⟨0, 2⟩ = false ∧ Cursor.legal ⟨1, 0⟩ = false ∧
    Cursor.legal ⟨4, 1⟩ = false := by decide

end Sys2Proof.Tests
end

section
/-!
SUPPORT. Scope of the model (spec/00_scope.md): the infinite runs of R7. A step on an event of the block is the function
`State.afterEvent`, so a sequence of events determines its run; the cursors stay within R25 along it.
-/
namespace Sys2Proof.Machine

/-! ### One event of the block -/

/-- What an event of the block does to the registers and logs (R70, R90, R150). A reserved timer word is no event of the block
(R60), so every timer word stands for `TICK` here; `step_of_wf` asks for an event that is well-formed. -/
def State.afterEvent (s : State) : Event → State
  | .reset => s.resetRegisters
  | .timer _ => s.tickWith .suppressed
  | .rx l b => s.receiveByte l b

@[simp] theorem State.input_afterEvent (s : State) (e : Event) : (s.afterEvent e).input = s.input := by
  cases e with
  | reset => exact s.input_resetRegisters
  | timer low => exact s.input_tickWith .suppressed
  | rx l b => exact s.input_receiveByte l b

/-- A step that finds an event of the block takes it and goes on (R7, R90, R130). -/
theorem step_of_wf {s : State} {e : Event} {rest : List Event} (h : s.input = e :: rest) (he : e.wf = true) :
    step s = .next ((s.withInput rest).afterEvent e) := by
  cases e with
  | reset => exact step_reset h
  | timer low =>
    obtain rfl : low = 0 := eq_of_beq he
    exact step_tick h
  | rx l b => exact step_receive h

/-! ### The cursors -/

/-- A cursor that counts one byte and goes to state `st`; one with nothing left to count stays (R93 to R97). -/
def Cursor.counted (c : Cursor) (st : StateCode) : Cursor :=
  if c.remaining = 0 then c else ⟨st, c.remaining - 1⟩

/-- What a received byte does to the receiving cursor (R92 to R99). -/
def Cursor.afterByte (c : Cursor) (b : Byte) : Cursor :=
  if c.state = 0 then ⟨1, loadedRemaining b⟩
  else if c.state = 1 then c.counted 2
  else if c.state = 2 then c.counted 3
  else if c.state = 3 ∨ c.state = 4 then c.counted (if c.remaining = 2 then 0 else 4)
  else c

theorem State.cur_takeLength (s : State) (l m : Link) (b : Byte) :
    (s.takeLength l b).cur m = if m = l then ⟨1, loadedRemaining b⟩ else s.cur m := by
  rw [State.takeLength, State.cur_transmit, State.cur_setCur]
  rfl

theorem State.cur_takeDuty (s : State) (c : Channel) (after : Remaining → StateCode) (l m : Link) (b : Byte) :
    (s.takeDuty .hold c after l b).cur m =
      if m = l then (s.cur l).counted (after (decremented (s.cur l).remaining)) else s.cur m := by
  rw [State.takeDuty_hold, Cursor.counted]
  by_cases hm : m = l
  · subst hm; split <;> simp [decremented]
  · split <;> simp [hm]

theorem State.cur_takePayload (s : State) (l m : Link) (b : Byte) :
    (s.takePayload .hold l b).cur m =
      if m = l then (s.cur l).counted (if (s.cur l).remaining = 2 then 0 else (s.cur l).state) else s.cur m := by
  rw [State.takePayload_hold, Cursor.counted]
  by_cases hm : m = l
  · subst hm
    split
    · simp
    · split
      · next h2 => simp [h2]
      · simp
  · rw [if_neg hm]
    repeat' split
    all_goals simp [hm]

/-- The receiving cursor moves as `Cursor.afterByte` says, and the other link's cursor stays (R21, R99). -/
theorem State.cur_receiveByte (s : State) (l m : Link) (b : Byte) :
    (s.receiveByte l b).cur m = if m = l then (s.cur l).afterByte b else s.cur m := by
  have hstay : s.cur m = if m = l then s.cur l else s.cur m := by split <;> simp [*]
  rcases stateCode_cases (s.cur l).state with h | h | h | h | h | h | h | h <;>
    simp only [State.receiveByte, Cursor.afterByte, h]
  · exact s.cur_takeLength l m b
  · exact s.cur_takeDuty .red (fun _ => 2) l m b
  · exact s.cur_takeDuty .green (fun _ => 3) l m b
  · rw [← stateAfterBlue_decremented]
    exact s.cur_takeDuty .blue stateAfterBlue l m b
  · have hpass := s.cur_takePayload l m b
    rw [h] at hpass
    exact hpass
  all_goals exact hstay

/-! ### The invariants of R25 -/

/-- R25's conditions on one cursor, on numbers. -/
theorem Cursor.legal_iff (c : Cursor) :
    c.legal = true ↔ c.state.toNat ≤ 4 ∧ c.remaining.toNat ≤ 256 ∧ (c.state = 0 → c.remaining.toNat ≤ 1) ∧
      (c.state = 1 → 1 ≤ c.remaining.toNat) ∧ (c.state = 4 → c.remaining.toNat ≠ 1) := by
  have hst0 : c.state = 0 ↔ c.state.toNat = 0 := BitVec.toNat_eq
  have hst1 : c.state = 1 ↔ c.state.toNat = 1 := BitVec.toNat_eq
  have hst4 : c.state = 4 ↔ c.state.toNat = 4 := BitVec.toNat_eq
  have h0 : c.remaining = 0 ↔ c.remaining.toNat = 0 := BitVec.toNat_eq
  have h1 : c.remaining = 1 ↔ c.remaining.toNat = 1 := BitVec.toNat_eq
  simp only [Cursor.legal, StateCode.awaitLength, StateCode.red, StateCode.passthrough, Bool.and_eq_true,
    Bool.or_eq_true, decide_eq_true_eq, bne_iff_ne, beq_iff_eq, ne_eq, hst0, hst1, hst4, h0, h1]
  omega

/-- R25 holds of a state when it holds of both cursors. -/
theorem State.legal_iff (s : State) : s.legal = true ↔ ∀ l, (s.cur l).legal = true := by
  rw [State.legal, Bool.and_eq_true]
  exact ⟨fun ⟨husb, hpin⟩ l => by cases l <;> assumption, fun h => ⟨h .usb, h .pin⟩⟩

/-- Counting a byte keeps R25's conditions on the ways the decoder takes: on to `GREEN` or `BLUE`, or, when the count comes to 1,
to `AWAIT_LENGTH` and else to `PASSTHROUGH`. -/
theorem Cursor.legal_counted {c : Cursor} {st : StateCode} (h : c.legal = true)
    (hst : st = 2 ∨ st = 3 ∨ st = if c.remaining = 2 then 0 else 4) : (c.counted st).legal = true := by
  rw [Cursor.counted]
  split
  · exact h
  · rw [Cursor.legal_iff] at h ⊢
    obtain ⟨-, hmax, -⟩ := h
    dsimp only
    rcases hst with rfl | rfl | rfl
    · bv_omega
    · bv_omega
    · split <;> bv_omega

theorem Cursor.legal_afterByte {c : Cursor} (b : Byte) (h : c.legal = true) : (c.afterByte b).legal = true := by
  unfold Cursor.afterByte
  split_ifs with _ _ _ _ hlast
  · have hb := b.isLt
    rw [Cursor.legal_iff, loadedRemaining_toNat]
    dsimp only
    bv_omega
  · exact Cursor.legal_counted h (.inl rfl)
  · exact Cursor.legal_counted h (.inr (.inl rfl))
  · exact Cursor.legal_counted h (.inr (.inr (if_pos hlast).symm))
  · exact Cursor.legal_counted h (.inr (.inr (if_neg hlast).symm))
  · exact h

/-- Every event of the block keeps R25's invariants. -/
theorem State.legal_afterEvent {s : State} (e : Event) (h : s.legal = true) : (s.afterEvent e).legal = true := by
  rw [State.legal_iff] at h ⊢
  intro m
  cases e with
  | reset => rw [State.afterEvent, State.cur_resetRegisters]; decide
  | timer low => rw [State.afterEvent, State.cur_tickWith]; exact h m
  | rx l b =>
    rw [State.afterEvent, State.cur_receiveByte]
    split
    · exact Cursor.legal_afterByte b (h l)
    · exact h m

/-! ### The run of a sequence of events -/

/-- The state after the first `n` events of `es`, from reset. -/
def stateAfter (es : Nat → Event) : Nat → State
  | 0 => State.reset
  | n + 1 => ((stateAfter es n).withInput []).afterEvent (es n)

@[simp] theorem input_stateAfter (es : Nat → Event) (n : Nat) : (stateAfter es n).input = [] := by
  cases n with
  | zero => rfl
  | succ n => simp [stateAfter]

theorem infiniteRun_stateAfter {es : Nat → Event} (hes : ∀ n, (es n).wf = true) : InfiniteRun es (stateAfter es) :=
  ⟨rfl, fun n => step_of_wf rfl (hes n)⟩

/-- The block is deterministic: two infinite runs on the same events are the same (R7). -/
theorem InfiniteRun.unique {es : Nat → Event} {σ τ : Nat → State} (hσ : InfiniteRun es σ) (hτ : InfiniteRun es τ) :
    τ = σ := by
  obtain ⟨hσ0, hσstep⟩ := hσ
  obtain ⟨hτ0, hτstep⟩ := hτ
  funext n
  induction n with
  | zero => rw [hσ0, hτ0]
  | succ n ih =>
    have hstep := hτstep n
    rw [ih, hσstep n] at hstep
    exact (Host.Outcome.next.inj hstep).symm

/-- An infinite run that leaves no event over is made of the finite runs of its first events. -/
theorem InfiniteRun.runEvents_range {es : Nat → Event} {σ : Nat → State} (hσ : InfiniteRun es σ)
    (hin : ∀ n, (σ n).input = []) (n : Nat) : runEvents ((List.range n).map es) State.reset = .next (σ n) := by
  obtain ⟨hσ0, hσstep⟩ := hσ
  induction n with
  | zero => rw [hσ0]; rfl
  | succ n ih =>
    rw [List.range_succ, List.map_append, runEvents_append _ ih]
    exact runEvents_single (hσstep n) (hin (n + 1))

theorem legal_stateAfter (es : Nat → Event) (n : Nat) : (stateAfter es n).legal = true := by
  induction n with
  | zero => rfl
  | succ n ih => exact State.legal_afterEvent (es n) ih

/-- Settles O15: the run is `stateAfter`, since an event of the block has exactly one step. -/
theorem infiniteEventSequenceHasOneRun : Obligations.InfiniteEventSequenceHasOneRun := by
  intro es hes
  have hrun : InfiniteRun es (stateAfter es) := infiniteRun_stateAfter hes
  exact ⟨stateAfter es, hrun, fun τ hτ => hrun.unique hτ, fun n =>
    ⟨hrun.runEvents_range (input_stateAfter es) n, legal_stateAfter es n, input_stateAfter es n⟩⟩

end Sys2Proof.Machine
end

section
/-!
SUPPORT. State of the model (spec/10_state.md): the reset values of R24, and R25's invariants, which hold at reset and which
every step keeps. A step that goes on is idle or is `State.afterEvent`, so the invariant needs no case per operation.
-/
namespace Sys2Proof.Machine

/-! ### The reset state, by accessor (R24) -/

@[simp] theorem State.th_reset (c : Channel) : State.reset.th c = 0 := by cases c <;> rfl
@[simp] theorem State.out_reset (c : Channel) : State.reset.out c = false := by cases c <;> rfl
@[simp] theorem State.cur_reset (l : Link) : State.reset.cur l = ⟨0, 0⟩ := by cases l <;> rfl
@[simp] theorem State.txlog_reset (l : Link) : State.reset.txlog l = [] := by cases l <;> rfl

/-- Settles O56, register by register. -/
theorem resetStateHoldsResetValues : Obligations.ResetStateHoldsResetValues :=
  ⟨rfl, fun c => ⟨State.th_reset c, State.out_reset c⟩, fun l => ⟨State.cur_reset l, State.txlog_reset l⟩, rfl⟩

/-- Settles O57: both cursors await a length byte with nothing to count. -/
theorem resetStateIsLegal : Obligations.ResetStateIsLegal := by
  refine State.reset.legal_iff.2 fun l => ?_
  rw [State.cur_reset]
  decide

/-! ### What a step that goes on did -/

/-- An event that is not well-formed is a reserved timer word, and the dispatcher refuses it (R60). -/
theorem step_of_not_wf {s : State} {e : Event} {rest : List Event} (h : s.input = e :: rest) (he : ¬ e.wf = true) :
    ∃ w, step s = .refused (.reservedDispatchWord w) := by
  cases e with
  | reset => exact absurd rfl he
  | timer low =>
    have hlow : low ≠ 0 := fun h0 => he (beq_iff_eq.2 h0)
    exact ⟨timerWord low, step_refused h (by rw [selectOperation_timer, if_neg hlow])⟩
  | rx l b => exact absurd rfl he

/-- A step that goes on found no event and changed nothing (R144), or took one event of the block (R7, R90). -/
theorem step_eq_next_cases {s t : State} (h : step s = .next t) :
    (s.input = [] ∧ t = s) ∨
      ∃ e rest, s.input = e :: rest ∧ e.wf = true ∧ t = (s.withInput rest).afterEvent e := by
  cases hin : s.input with
  | nil =>
    rw [step_idle hin] at h
    exact .inl ⟨rfl, (Host.Outcome.next.inj h).symm⟩
  | cons e rest =>
    by_cases he : e.wf = true
    · rw [step_of_wf hin he] at h
      exact .inr ⟨e, rest, rfl, he, (Host.Outcome.next.inj h).symm⟩
    · obtain ⟨w, hw⟩ := step_of_not_wf hin he
      rw [hw] at h
      cases h

/-! ### The invariants of R25 along a step -/

/-- R25 speaks of the cursors only, not of the events still to come. -/
@[simp] theorem State.legal_withInput (s : State) (es : List Event) : (s.withInput es).legal = s.legal := rfl

/-- Settles O58: an idle step changes nothing, and every event of the block keeps both cursors legal
(`State.legal_afterEvent`). -/
theorem stepKeepsCursorsLegal : Obligations.StepKeepsCursorsLegal := by
  intro s t hs hstep
  obtain ⟨-, rfl⟩ | ⟨e, rest, -, -, rfl⟩ := step_eq_next_cases hstep
  · exact hs
  · exact State.legal_afterEvent e ((s.legal_withInput rest).trans hs)

end Sys2Proof.Machine
end

section
/-!
SUPPORT. Memory of the model (spec/20_memory.md): which operation writes which register and log (R30), what a link's cursor
depends on (R37), and which of two writes to one threshold stands (R41).
-/
namespace Sys2Proof.Machine

/-! ### What the decoder's operations leave unchanged -/

@[simp] theorem State.th_takeLength (s : State) (l : Link) (b : Byte) (c : Channel) : (s.takeLength l b).th c = s.th c := by
  simp [State.takeLength]

@[simp] theorem State.out_takeLength (s : State) (l : Link) (b : Byte) (c : Channel) :
    (s.takeLength l b).out c = s.out c := by
  simp [State.takeLength]

@[simp] theorem State.cnt_takeLength (s : State) (l : Link) (b : Byte) : (s.takeLength l b).cnt = s.cnt := by
  simp [State.takeLength]

@[simp] theorem State.input_takeLength (s : State) (l : Link) (b : Byte) : (s.takeLength l b).input = s.input := by
  simp [State.takeLength]

theorem State.txlog_takeLength_of_ne {l m : Link} {b : Byte} (s : State) (hm : m ≠ headerLink l b) :
    (s.takeLength l b).txlog m = s.txlog m := by
  simp [State.takeLength, hm]

theorem State.th_takeDuty_of_ne {c d : Channel} (s : State) (after : Remaining → StateCode) (l : Link) (b : Byte)
    (hd : d ≠ c) : (s.takeDuty .hold c after l b).th d = s.th d := by
  rw [State.takeDuty_hold]
  split <;> simp [hd]

@[simp] theorem State.out_takeDuty (s : State) (c d : Channel) (after : Remaining → StateCode) (l : Link) (b : Byte) :
    (s.takeDuty .hold c after l b).out d = s.out d := by
  rw [State.takeDuty_hold]
  split <;> simp

@[simp] theorem State.cnt_takeDuty (s : State) (c : Channel) (after : Remaining → StateCode) (l : Link) (b : Byte) :
    (s.takeDuty .hold c after l b).cnt = s.cnt := by
  rw [State.takeDuty_hold]
  split <;> simp

@[simp] theorem State.input_takeDuty (s : State) (c : Channel) (after : Remaining → StateCode) (l : Link) (b : Byte) :
    (s.takeDuty .hold c after l b).input = s.input := by
  rw [State.takeDuty_hold]
  split <;> simp

@[simp] theorem State.th_takePayload (s : State) (l : Link) (b : Byte) (c : Channel) :
    (s.takePayload .hold l b).th c = s.th c := by
  rw [State.takePayload_hold]
  split_ifs <;> simp

@[simp] theorem State.out_takePayload (s : State) (l : Link) (b : Byte) (c : Channel) :
    (s.takePayload .hold l b).out c = s.out c := by
  rw [State.takePayload_hold]
  split_ifs <;> simp

@[simp] theorem State.cnt_takePayload (s : State) (l : Link) (b : Byte) : (s.takePayload .hold l b).cnt = s.cnt := by
  rw [State.takePayload_hold]
  split_ifs <;> simp

@[simp] theorem State.input_takePayload (s : State) (l : Link) (b : Byte) :
    (s.takePayload .hold l b).input = s.input := by
  rw [State.takePayload_hold]
  split_ifs <;> simp

theorem State.txlog_takePayload_of_ne {l m : Link} (s : State) (b : Byte) (hm : m ≠ peer l) :
    (s.takePayload .hold l b).txlog m = s.txlog m := by
  rw [State.takePayload_hold]
  split_ifs <;> simp [hm]

/-! ### One operation -/

/-- The state an operation leaves (R130: every operation has one). -/
def State.afterOperation (s : State) : Instr → State
  | .tick => s.tickWith .suppressed
  | .pstart tr tg tb => s.periodStart tr tg tb
  | .matchR t => s.matchChannel .red t
  | .matchG t => s.matchChannel .green t
  | .matchB t => s.matchChannel .blue t
  | .rxLen l b => s.takeLength l b
  | .rxRed l b => s.takeDuty .hold .red (fun _ => 2) l b
  | .rxGreen l b => s.takeDuty .hold .green (fun _ => 3) l b
  | .rxBlue l b => s.takeDuty .hold .blue stateAfterBlue l b
  | .rxPass l b => s.takePayload .hold l b
  | .rxNop5 _ _ => s
  | .rxNop67 _ _ _ => s
  | .emit l v => s.transmit l v
  | .reset => s.resetRegisters

theorem exec_eq_next_afterOperation (i : Instr) (s : State) : exec i s = .next (s.afterOperation i) := by
  cases i <;> rfl

/-! ### The access table, one register at a time (R30) -/

section AccessTable
variable (s : State) {i : Instr}

theorem State.input_afterOperation : (s.afterOperation i).input = s.input := by
  cases i <;> simp [State.afterOperation]

theorem State.cnt_afterOperation (hreset : i ≠ .reset) (htick : i ≠ .tick) : (s.afterOperation i).cnt = s.cnt := by
  cases i with
  | reset => exact absurd rfl hreset
  | tick => exact absurd rfl htick
  | _ => simp [State.afterOperation]

/-- The operation that writes the threshold of a channel, whatever its link and byte (R30, R93 to R95). -/
def dutyOperation : Channel → Link → Byte → Instr
  | .red => .rxRed
  | .green => .rxGreen
  | .blue => .rxBlue

theorem State.th_afterOperation (c : Channel) (hreset : i ≠ .reset) (hduty : ∀ l b, i ≠ dutyOperation c l b) :
    (s.afterOperation i).th c = s.th c := by
  cases i with
  | reset => exact absurd rfl hreset
  | rxRed l b => exact s.th_takeDuty_of_ne _ l b fun hc => hduty l b (by rw [hc]; rfl)
  | rxGreen l b => exact s.th_takeDuty_of_ne _ l b fun hc => hduty l b (by rw [hc]; rfl)
  | rxBlue l b => exact s.th_takeDuty_of_ne _ l b fun hc => hduty l b (by rw [hc]; rfl)
  | _ => simp [State.afterOperation]

/-- The compare match of a channel, whatever the threshold it carries (R73 to R75). -/
def matchOperation : Channel → Byte → Instr
  | .red => .matchR
  | .green => .matchG
  | .blue => .matchB

theorem State.out_matchChannel_of_ne {c d : Channel} (t : Byte) (hd : d ≠ c) : (s.matchChannel c t).out d = s.out d := by
  rw [State.out_matchChannel, if_neg hd]

theorem State.out_afterOperation (c : Channel) (hreset : i ≠ .reset) (htick : i ≠ .tick)
    (hpstart : ∀ tr tg tb, i ≠ .pstart tr tg tb) (hmatch : ∀ t, i ≠ matchOperation c t) :
    (s.afterOperation i).out c = s.out c := by
  cases i with
  | reset => exact absurd rfl hreset
  | tick => exact absurd rfl htick
  | pstart tr tg tb => exact absurd rfl (hpstart tr tg tb)
  | matchR t => exact s.out_matchChannel_of_ne t fun hc => hmatch t (by rw [hc]; rfl)
  | matchG t => exact s.out_matchChannel_of_ne t fun hc => hmatch t (by rw [hc]; rfl)
  | matchB t => exact s.out_matchChannel_of_ne t fun hc => hmatch t (by rw [hc]; rfl)
  | _ => simp [State.afterOperation]

theorem State.cur_afterOperation {l : Link} (hreset : i ≠ .reset) (hlen : ∀ b, i ≠ .rxLen l b)
    (hred : ∀ b, i ≠ .rxRed l b) (hgreen : ∀ b, i ≠ .rxGreen l b) (hblue : ∀ b, i ≠ .rxBlue l b)
    (hpass : ∀ b, i ≠ .rxPass l b) : (s.afterOperation i).cur l = s.cur l := by
  cases i with
  | reset => exact absurd rfl hreset
  | rxLen m b => exact (s.cur_takeLength m l b).trans (if_neg fun hl => hlen b (by rw [hl]))
  | rxRed m b => exact (s.cur_takeDuty _ _ m l b).trans (if_neg fun hl => hred b (by rw [hl]))
  | rxGreen m b => exact (s.cur_takeDuty _ _ m l b).trans (if_neg fun hl => hgreen b (by rw [hl]))
  | rxBlue m b => exact (s.cur_takeDuty _ _ m l b).trans (if_neg fun hl => hblue b (by rw [hl]))
  | rxPass m b => exact (s.cur_takePayload m l b).trans (if_neg fun hl => hpass b (by rw [hl]))
  | _ => simp [State.afterOperation]

/-- A length byte goes out on the peer link from 5 on, and on its own below (R52). -/
theorem headerLink_cases (l : Link) (b : Byte) :
    5 ≤ b.toNat ∧ l = peer (headerLink l b) ∨ b.toNat ≤ 4 ∧ l = headerLink l b := by
  by_cases hb : 5 ≤ b.toNat
  · exact .inl ⟨hb, by rw [headerLink_large l hb, peer_peer]⟩
  · exact .inr ⟨by omega, (headerLink_small l (by omega)).symm⟩

theorem State.txlog_afterOperation {m : Link} (hreset : i ≠ .reset) (hpass : ∀ b, i ≠ .rxPass (peer m) b)
    (hlarge : ∀ b : Byte, 5 ≤ b.toNat → i ≠ .rxLen (peer m) b) (hsmall : ∀ b : Byte, b.toNat ≤ 4 → i ≠ .rxLen m b)
    (hemit : ∀ v, i ≠ .emit m v) : (s.afterOperation i).txlog m = s.txlog m := by
  cases i with
  | reset => exact absurd rfl hreset
  | rxLen l b =>
    refine s.txlog_takeLength_of_ne fun hm => ?_
    obtain ⟨hb, hl⟩ | ⟨hb, hl⟩ := headerLink_cases l b
    · exact hlarge b hb (by rw [hm, ← hl])
    · exact hsmall b hb (by rw [hm, ← hl])
  | rxPass l b => exact s.txlog_takePayload_of_ne b fun hm => hpass b (by rw [hm, peer_peer])
  | emit l v => exact (s.txlog_transmit l v m).trans (if_neg fun hm => hemit v (by rw [hm]))
  | _ => simp [State.afterOperation]

end AccessTable

/-- Settles O42, one register of the access table after the other. -/
theorem operationsWriteOnlyTheirRegisters : Obligations.OperationsWriteOnlyTheirRegisters := by
  intro i s t h hreset
  rw [exec_eq_next_afterOperation] at h
  obtain rfl := Host.Outcome.next.inj h
  refine ⟨s.input_afterOperation, s.cnt_afterOperation hreset, s.th_afterOperation .red hreset,
    s.th_afterOperation .green hreset, s.th_afterOperation .blue hreset, s.out_afterOperation .red hreset,
    s.out_afterOperation .green hreset, s.out_afterOperation .blue hreset, fun l hown => ?_,
    fun m => s.txlog_afterOperation hreset⟩
  simp only [forall_and] at hown
  obtain ⟨hlen, hred, hgreen, hblue, hpass⟩ := hown
  exact s.cur_afterOperation hreset hlen hred hgreen hblue hpass

/-! ### A link's cursor along a run (R21, R37) -/

theorem runEvents_cons_of_wf {e : Event} (es : List Event) (s : State) (he : e.wf = true) :
    runEvents (e :: es) s = runEvents es (s.afterEvent e) := by
  cases e with
  | reset => exact runEvents_reset es s
  | timer low =>
    obtain rfl : low = 0 := eq_of_beq he
    exact runEvents_tick es s
  | rx l b => exact runEvents_rx es s l b

/-- A run that completes took its first event as an event of the block (R60). -/
theorem runEvents_cons_eq_next {e : Event} {es : List Event} {s t : State} (h : runEvents (e :: es) s = .next t) :
    runEvents es (s.afterEvent e) = .next t := by
  by_cases he : e.wf = true
  · rwa [runEvents_cons_of_wf es s he] at h
  · obtain ⟨w, hw⟩ := step_of_not_wf (s := s.withInput (e :: es)) rfl he
    have hrefused : runEvents (e :: es) s = .refused (.reservedDispatchWord w) := run_succ_of_refused _ hw
    rw [hrefused] at h
    cases h

/-- The bytes of a list of events are those of its first event, then those of the rest. -/
theorem bytesOn_cons (l : Link) (e : Event) (es : List Event) : bytesOn l (e :: es) = bytesOn l [e] ++ bytesOn l es := by
  cases e with
  | reset => rfl
  | timer low => rfl
  | rx m b => simp only [bytesOn]; split <;> rfl

/-- An event moves a link's cursor by the byte it brings on that link, and by nothing else but `RESET`. -/
theorem State.cur_afterEvent (s : State) (l : Link) {e : Event} (he : e ≠ .reset) :
    (s.afterEvent e).cur l = (bytesOn l [e]).foldl Cursor.afterByte (s.cur l) := by
  cases e with
  | reset => exact absurd rfl he
  | timer low => exact s.cur_tickWith .suppressed l
  | rx m b =>
    rw [State.afterEvent, State.cur_receiveByte]
    by_cases hm : m = l
    · simp [bytesOn, hm]
    · simp [bytesOn, hm, Ne.symm hm]

/-- After a run a link's cursor is its start moved by the link's own bytes, in order. -/
theorem cur_of_runEvents {es : List Event} {s t : State} (l : Link) (hes : ∀ e ∈ es, e ≠ .reset)
    (h : runEvents es s = .next t) : t.cur l = (bytesOn l es).foldl Cursor.afterByte (s.cur l) := by
  induction es generalizing s with
  | nil =>
    rw [runEvents_nil] at h
    obtain rfl := Host.Outcome.next.inj h
    exact s.cur_withInput [] l
  | cons e es ih =>
    obtain ⟨he, hes⟩ := List.forall_mem_cons.1 hes
    rw [ih hes (runEvents_cons_eq_next h), State.cur_afterEvent s l he, bytesOn_cons l e es,
      List.foldl_append]

/-- Settles O51: both cursors are the common start moved by the common bytes (`cur_of_runEvents`). -/
theorem cursorDependsOnOwnBytesOnly : Obligations.CursorDependsOnOwnBytesOnly := by
  intro es fs s u s' u' l hreset hbytes hcur hes hfs
  obtain ⟨hresetE, hresetF⟩ := List.forall_mem_append.1 hreset
  rw [cur_of_runEvents l hresetE hes, cur_of_runEvents l hresetF hfs, hbytes, hcur]

/-! ### Two duty bytes for one threshold (R41) -/

/-- The three duty states of a cursor with bytes left to count name their channels (R93 to R95). -/
theorem Cursor.dutyChannel_eq_some {k : Cursor} {c : Channel}
    (hst : k.state = 1 ∧ c = .red ∨ k.state = 2 ∧ c = .green ∨ k.state = 3 ∧ c = .blue) (hr : k.remaining ≠ 0) :
    k.dutyChannel = some c := by
  rw [Cursor.dutyChannel, if_neg hr]
  obtain ⟨h, rfl⟩ | ⟨h, rfl⟩ | ⟨h, rfl⟩ := hst <;> rw [h] <;> rfl

/-- Settles O52: the first byte leaves the other link's cursor where it was, so the second still writes the threshold that
cursor names. -/
theorem laterDutyByteWins : Obligations.LaterDutyByteWins := by
  intro s l b₁ b₂ st c hst hcur
  obtain ⟨rfl, hr⟩ := hcur (peer l)
  have hduty : ((s.receiveByte l b₁).cur (peer l)).dutyChannel = some c := by
    rw [State.cur_receiveByte, if_neg (peer_ne l)]
    exact Cursor.dutyChannel_eq_some hst hr
  refine ⟨((s.receiveByte l b₁).receiveByte (peer l) b₂).withInput [], by simp, ?_⟩
  rw [State.th_withInput, State.th_receiveByte, if_pos hduty]

end Sys2Proof.Machine
end

section
/-!
SUPPORT. Encodings of the model (spec/30_encoding.md): decode and encode are inverse on the words that have an operation, the
rows of R58 are disjoint and cover, the reserved words are refused (R60), and a step runs what its event's word decodes to. Every
dispatch word is a timer word or a receive word, so no proof below takes a word apart bit by bit.
-/
namespace Sys2Proof

/-! ### Numeric codes -/

@[simp] theorem Channel.ofCode_code (c : Channel) : Channel.ofCode c.code = some c := by
  cases c <;> rfl

/-- Settles O6: the five codes, and each name the one its code names. -/
theorem codesNameChannelsAndLinks : Obligations.CodesNameChannelsAndLinks :=
  ⟨rfl, rfl, rfl, rfl, rfl, Channel.ofCode_code, rfl, Link.ofCode_code⟩

/-! ### The two kinds of dispatch word -/

theorem dwKind_eq_zero_or_one (w : DispatchWord) : dwKind w = 0 ∨ dwKind w = 1 := by
  generalize dwKind w = k
  revert k
  decide

theorem exists_receiveWord {w : DispatchWord} (h : dwKind w = 1) : ∃ l st b, w = receiveWord l st b :=
  ⟨_, _, _, (receiveWord_of_fields h).symm⟩

/-- Every dispatch word is a timer word or a receive word (R57). -/
theorem dispatchWord_cases (w : DispatchWord) : (∃ low, w = timerWord low) ∨ ∃ l st b, w = receiveWord l st b := by
  obtain h | h := dwKind_eq_zero_or_one w
  · exact .inl ⟨dwLow w, (timerWord_of_low h).symm⟩
  · exact .inr (exists_receiveWord h)

/-! ### The rows of R58 on a receive word -/

/-- The three masks of R58. -/
theorem mask_of_mem_selectionTable {r : OpRow} (h : r ∈ selectionTable) :
    r = rowTick ∨ r.mask = 0x1700 ∨ r.mask = 0x1600 := by
  revert r
  decide

/-- No row of R58 looks at the link or at the byte of a receive word. -/
theorem selects_receiveWord_eq_of_mem {r : OpRow} (h : r ∈ selectionTable) (l : Link) (st : StateCode) (b : Byte) :
    r.selects (receiveWord l st b) = r.selects (receiveWord .usb st 0) := by
  obtain rfl | hmask | hmask := mask_of_mem_selectionTable h
  · rw [Bool.eq_iff_iff, rowTick_selects_iff, rowTick_selects_iff]
    exact iff_of_false (receiveWord_ne_zero l st b) (receiveWord_ne_zero .usb st 0)
  · simp only [OpRow.selects, hmask, receiveWord_and_0x1700]
  · simp only [OpRow.selects, hmask, receiveWord_and_0x1600]

end Sys2Proof

namespace Sys2Proof.Machine

/-! ### The decoder and the encoder, by the kind of word -/

theorem decode_timerWord_zero : decode (timerWord 0) = .ok .tick :=
  (decode_timerWord 0).trans (if_pos rfl)

theorem decode_receiveWord_eq_ok (l : Link) (st : StateCode) (b : Byte) :
    decode (receiveWord l st b) = .ok (receiveOperation st l b) := by
  rw [decode_receiveWord]
  obtain rfl | rfl | rfl | rfl | rfl | rfl | rfl | rfl := stateCode_cases st <;> rfl

theorem encode_receiveOperation (l : Link) (st : StateCode) (b : Byte) :
    encode (receiveOperation st l b) = some (receiveWord l st b) := by
  obtain rfl | rfl | rfl | rfl | rfl | rfl | rfl | rfl := stateCode_cases st <;> rfl

/-- The state codes 6 and 7 differ in the bit that `RX.NOP`'s second row keeps (R58). -/
theorem receiveOperation_three_append (l : Link) (x : BitVec 1) (b : Byte) :
    receiveOperation ((3 : BitVec 2) ++ x) l b = .rxNop67 l x b := by
  have hx : x = 0 ∨ x = 1 := by revert x; decide
  obtain rfl | rfl := hx <;> rfl

/-- Settles O1: the word of each operation that has one is the timer word 0 or the receive word of its state code. -/
theorem decodeOfEncodeGivesOperation : Obligations.DecodeOfEncodeGivesOperation := by
  intro i w h
  cases i with
  | tick => cases h; exact decode_timerWord_zero
  | rxLen l b => cases h; exact decode_receiveWord_eq_ok l 0 b
  | rxRed l b => cases h; exact decode_receiveWord_eq_ok l 1 b
  | rxGreen l b => cases h; exact decode_receiveWord_eq_ok l 2 b
  | rxBlue l b => cases h; exact decode_receiveWord_eq_ok l 3 b
  | rxPass l b => cases h; exact decode_receiveWord_eq_ok l 4 b
  | rxNop5 l b => cases h; exact decode_receiveWord_eq_ok l 5 b
  | rxNop67 l x b => cases h; rw [decode_receiveWord_eq_ok, receiveOperation_three_append]
  | pstart | matchR | matchG | matchB | emit | reset => cases h

/-- Settles O2: a word that decodes is the timer word 0 or a receive word, and either is what its operation encodes to. -/
theorem encodeOfDecodeGivesWord : Obligations.EncodeOfDecodeGivesWord := by
  intro w i h
  obtain ⟨low, rfl⟩ | ⟨l, st, b, rfl⟩ := dispatchWord_cases w
  · rw [decode_timerWord] at h
    split at h
    next hlow => cases h; rw [hlow]; rfl
    next => cases h
  · rw [decode_receiveWord_eq_ok] at h
    cases h
    exact encode_receiveOperation l st b

/-- For each state code, the one row of R58 that selects it and the row its operation stands in. -/
theorem exists_row_of_stateCode (l : Link) (st : StateCode) (b : Byte) :
    ∃ r, selectionTable.filter (fun q => q.selects (receiveWord .usb st 0)) = [r] ∧
      tableRow (receiveOperation st l b) = some r := by
  obtain rfl | rfl | rfl | rfl | rfl | rfl | rfl | rfl := stateCode_cases st
  · exact ⟨rowLen, rfl, rfl⟩
  · exact ⟨rowRed, rfl, rfl⟩
  · exact ⟨rowGreen, rfl, rfl⟩
  · exact ⟨rowBlue, rfl, rfl⟩
  · exact ⟨rowPass, rfl, rfl⟩
  · exact ⟨rowNop5, rfl, rfl⟩
  · exact ⟨rowNop67, rfl, rfl⟩
  · exact ⟨rowNop67, rfl, rfl⟩

/-- Settles O3: the rows see the state code alone (`selects_receiveWord_eq_of_mem`), and each code has its one row. -/
theorem oneTableRowSelectsEachReceiveWord : Obligations.OneTableRowSelectsEachReceiveWord := by
  intro w hw
  obtain ⟨l, st, b, rfl⟩ := exists_receiveWord hw
  obtain ⟨r, hfilter, hrow⟩ := exists_row_of_stateCode l st b
  refine ⟨r, receiveOperation st l b, ?_, decode_receiveWord_eq_ok l st b, hrow⟩
  rw [← hfilter]
  exact List.filter_congr fun q hq => selects_receiveWord_eq_of_mem hq l st b

/-- Settles O4: a timer word is refused unless it is 0, and a receive word never is. -/
theorem decodeRefusesExactlyReservedTimerWords : Obligations.DecodeRefusesExactlyReservedTimerWords := by
  intro w
  obtain ⟨low, rfl⟩ | ⟨l, st, b, rfl⟩ := dispatchWord_cases w
  · rw [decode_timerWord, dwKind_timerWord, dwLow_timerWord]
    by_cases hlow : low = 0 <;> simp [hlow]
  · rw [decode_receiveWord_eq_ok, dwKind_receiveWord]
    simp

/-- Settles O5: each word is the timer or receive word of the fields R57 gives it. -/
theorem writtenOutWordsDecode : Obligations.WrittenOutWordsDecode :=
  ⟨decode_timerWord_zero, decode_receiveWord_eq_ok .usb 0 0x05, decode_receiveWord_eq_ok .pin 1 0x40,
    decode_receiveWord_eq_ok .usb 2 0x41, decode_receiveWord_eq_ok .usb 3 0x42, decode_receiveWord_eq_ok .pin 4 0xA4,
    decode_receiveWord_eq_ok .usb 5 0x00, decode_receiveWord_eq_ok .pin 6 0x99, decode_timerWord 1⟩

/-! ### Script lines (R62) -/

theorem scriptEvents_map_rx (l : Link) (bytes : List Byte) :
    scriptEvents (bytes.map (ScriptLine.rx l)) = receive l bytes := by
  rw [scriptEvents, List.flatMap_map, receive, List.map_eq_flatMap]
  rfl

/-- Settles O8: a packet's line is one `rx` line for each of its bytes. -/
theorem scriptLinesExpand : Obligations.ScriptLinesExpand := by
  refine ⟨rfl, fun l p => ?_⟩
  rw [← List.map_append, scriptEvents_map_rx]
  rfl

/-! ### A step runs what its event's word decodes to -/

theorem step_of_decode {s : State} {e : Event} {rest : List Event} {w : DispatchWord} {i : Instr}
    (hin : s.input = e :: rest) (hw : eventWord s e = some w) (hi : decode w = .ok i) :
    step s = exec i (s.withInput rest) :=
  step_event hin (by simp only [selectOperation, hw, hi])

/-- Settles O9: the tick event is the one whose word is the timer word 0, and the reset port has no word. -/
theorem stepRunsDecodedOperation : Obligations.StepRunsDecodedOperation := fun s _ =>
  ⟨fun _ _ _ => step_of_decode, fun hin => step_event hin (selectOperation_reset s),
    fun hin => step_of_decode hin rfl decode_timerWord_zero⟩

/-- Settles O11: the dispatcher's refusal is the step's. -/
theorem reservedTimerWordIsRefused : Obligations.ReservedTimerWordIsRefused := by
  intro s low rest hin hlow
  exact step_refused hin (by rw [selectOperation_timer, if_neg hlow])

/-! ### A word placed as the next one -/

theorem State.offerWord_timerWord (s : State) (low : BitVec 12) :
    s.offerWord (timerWord low) = s.withInput (.timer low :: s.input) := by
  simp [State.offerWord]

theorem State.offerWord_receiveWord (s : State) (l : Link) (st : StateCode) (b : Byte) :
    s.offerWord (receiveWord l st b) =
      (s.setCur l ⟨st, (s.cur l).remaining⟩).withInput (.rx l b :: s.input) := by
  simp [State.offerWord]

/-- Offering a word puts first the event whose dispatch word it is (R57). -/
theorem State.exists_event_of_offerWord (s : State) (w : DispatchWord) :
    ∃ e, (s.offerWord w).input = e :: s.input ∧ eventWord (s.offerWord w) e = some w := by
  obtain ⟨low, rfl⟩ | ⟨l, st, b, rfl⟩ := dispatchWord_cases w
  · rw [State.offerWord_timerWord]
    exact ⟨.timer low, rfl, rfl⟩
  · rw [State.offerWord_receiveWord]
    exact ⟨.rx l b, rfl, by simp [eventWord]⟩

/-- `u` differs from `s` in nothing but the state codes of its cursors. -/
def State.SameButStateCodes (u s : State) : Prop :=
  u.input = s.input ∧ u.cnt = s.cnt ∧ (∀ c, u.th c = s.th c ∧ u.out c = s.out c) ∧
    ∀ l, (u.cur l).remaining = (s.cur l).remaining ∧ u.txlog l = s.txlog l

theorem State.sameButStateCodes_setCur (s : State) (l : Link) (st : StateCode) :
    (s.setCur l ⟨st, (s.cur l).remaining⟩).SameButStateCodes s := by
  refine ⟨by simp, by simp, by simp, fun m => ⟨?_, by simp⟩⟩
  rw [State.cur_setCur]
  split
  next hm => rw [hm]
  next => rfl

/-- Once its event is taken, an offered word has left a mark on the receiving cursor's state code alone. -/
theorem State.sameButStateCodes_offerWord (s : State) (w : DispatchWord) :
    ((s.offerWord w).withInput s.input).SameButStateCodes s := by
  obtain ⟨low, rfl⟩ | ⟨l, st, b, rfl⟩ := dispatchWord_cases w
  · rw [State.offerWord_timerWord, State.withInput_withInput, State.withInput_input]
    exact ⟨rfl, rfl, fun _ => ⟨rfl, rfl⟩, fun _ => ⟨rfl, rfl⟩⟩
  · rw [State.offerWord_receiveWord, State.withInput_withInput, ← s.input_setCur l ⟨st, (s.cur l).remaining⟩,
      State.withInput_input]
    exact s.sameButStateCodes_setCur l st

theorem decodeTableWord_eq_some {nbits w : Nat} {i : Instr} (h : decodeTableWord nbits w = some i) :
    ∃ dw, tableDispatchWord nbits w = some dw ∧ decode dw = .ok i := by
  unfold decodeTableWord at h
  split at h
  next => cases h
  next dw hdw =>
    split at h
    next j hj => cases h; exact ⟨dw, hdw, hj⟩
    next => cases h

/-- Settles O16: the placed word's event is next and its word decodes to the operation. -/
theorem placedTableWordRunsNext : Obligations.PlacedTableWordRunsNext := by
  intro s nbits w i h
  obtain ⟨dw, hdw, hdecode⟩ := decodeTableWord_eq_some h
  obtain ⟨e, hin, hword⟩ := s.exists_event_of_offerWord dw
  have hplaced : s.withFetchWord nbits w = s.offerWord dw := by
    simp only [State.withFetchWord, State.offerTableWord, hdw]
  rw [hplaced]
  exact ⟨(s.offerWord dw).withInput s.input, step_of_decode hin hword hdecode, s.sameButStateCodes_offerWord dw⟩

/-! ### The decoders emit through the router (R59, R121) -/

@[simp] theorem runOperations_nil (s : State) : runOperations [] s = .next s := rfl

@[simp] theorem runOperations_emit (s : State) (l : Link) (v : Byte) :
    runOperations [.emit l v] s = .next (s.transmit l v) := rfl

/-- A payload byte selects its `EMIT` unless nothing is left to count or it ends the packet (R96, R97). -/
theorem subOperations_rxPass (s : State) (l : Link) (b : Byte) :
    subOperations (.rxPass l b) s =
      if (s.cur l).remaining = 0 ∨ (s.cur l).remaining = 2 then [] else [.emit (peer l) b] := by
  simp only [subOperations, Config.underflow, Bool.or_eq_true, starved_hold, completes_decremented_iff]

/-- A payload byte that is counted moves its cursor and performs the `EMIT` it selects (R96). -/
theorem exec_rxPass_eq_runOperations {s : State} {l : Link} (b : Byte) (h : (s.cur l).remaining ≠ 0) :
    exec (.rxPass l b) s = runOperations (subOperations (.rxPass l b) s)
      (s.setCur l ⟨if (s.cur l).remaining = 2 then 0 else (s.cur l).state, (s.cur l).remaining - 1⟩) := by
  rw [exec_rxPass, State.takePayload_hold, subOperations_rxPass, if_neg h]
  by_cases h2 : (s.cur l).remaining = 2
  · rw [if_pos h2, if_pos h2, if_pos (.inr h2), runOperations_nil, h2]
    rfl
  · rw [if_neg h2, if_neg h2, if_neg (not_or.2 ⟨h, h2⟩), runOperations_emit]

/-- Settles O38: a length byte selects the one `EMIT` of its header, and a payload byte the one of its relay or none. -/
theorem decodersEmitThroughTheRouter : Obligations.DecodersEmitThroughTheRouter := fun s l b =>
  ⟨(exec_rxLen s l b).trans (runOperations_emit _ (headerLink l b) (headerByte b)).symm,
    fun h => (subOperations_rxPass s l b).trans (if_pos (.inl h)), exec_rxPass_eq_runOperations b⟩

end Sys2Proof.Machine
end

section
/-!
SUPPORT. PWM engine of the model (spec/40_pwm_engine.md): what `TICK` and its sub-operations do, the counter and the outputs
along ticks (R70 to R80), and the dark first period (R83). `State.out_tick` says what one tick does to an output; the proofs
about runs of ticks go through `State.afterTicks`.
-/
namespace Sys2Proof.Machine

/-! ### `TICK`, `PSTART` and `MATCH(c)`, each by itself -/

/-- Settles O17: the counter by `nextCount_val_ite`, the outputs by `State.out_tick`, and the frame of the tick. -/
theorem tickAdvancesCounterAndOutputs : Obligations.TickAdvancesCounterAndOutputs := by
  intro s
  refine ⟨s.tickWith .suppressed, exec_tick s, ?_, fun c => ?_, s.th_tickWith .suppressed, s.cur_tickWith .suppressed,
    s.txlog_tickWith .suppressed, s.input_tickWith .suppressed⟩
  · rw [State.cnt_tickWith, nextCount_val_ite]
  · rw [State.cnt_tickWith, State.out_tick]

theorem State.periodStart_eq (s : State) (tr tg tb : Byte) :
    s.periodStart tr tg tb = { s with
      outRed := decide (tr ≠ 0) || s.outRed
      outGreen := decide (tg ≠ 0) || s.outGreen
      outBlue := decide (tb ≠ 0) || s.outBlue } := by
  simp only [← outAtPeriodStart_eq]
  rfl

theorem State.matchChannel_eq (s : State) (c : Channel) (t : Byte) :
    s.matchChannel c t = if 255 ≤ t.toNat then s else s.setOut c false := by
  rw [State.matchChannel, outAtMatch_eq]
  split
  · cases c <;> rfl
  · rfl

/-! ### The sub-operations of a tick (R59, R76) -/

theorem matchOperation_eq_iff {c d : Channel} {t u : Byte} : matchOperation c t = matchOperation d u ↔ c = d ∧ t = u := by
  cases c <;> cases d <;> simp [matchOperation]

theorem matchOperation_ne_pstart (c : Channel) (t tr tg tb : Byte) : matchOperation c t ≠ .pstart tr tg tb := by
  cases c <;> exact nofun

/-- The tick from `s` comes to the nonzero threshold of channel `c` (R76). -/
def State.matchReached (s : State) (c : Channel) : Prop := s.th c ≠ 0 ∧ (s.cnt.val + 1) % 255 = (s.th c).toNat

theorem State.matchFires_iff_matchReached (s : State) (c : Channel) :
    matchFires Config.zeroMatch (nextCount s.cnt) (s.th c) = true ↔ s.matchReached c := by
  rw [Config.zeroMatch, matchFires_suppressed_iff, nextCount_val, State.matchReached]

/-- A tick performs `PSTART` when it wraps, and the match of each channel whose threshold it reaches, and nothing else. -/
theorem mem_subOperations_tick {s : State} {i : Instr} :
    i ∈ subOperations .tick s ↔ (s.cnt.val = 254 ∧ i = .pstart s.thRed s.thGreen s.thBlue) ∨
      ∃ c, s.matchReached c ∧ i = matchOperation c (s.th c) := by
  simp only [subOperations, List.mem_append, List.mem_ite_nil_right, List.mem_singleton]
  simp only [nextCount_eq_zero_iff, State.thRed_eq s, State.thGreen_eq s, State.thBlue_eq s,
    State.matchFires_iff_matchReached]
  constructor
  · rintro (((h | h) | h) | h)
    · exact .inl h
    · exact .inr ⟨.red, h⟩
    · exact .inr ⟨.green, h⟩
    · exact .inr ⟨.blue, h⟩
  · rintro (h | ⟨c, h⟩)
    · exact .inl (.inl (.inl h))
    · cases c with
      | red => exact .inl (.inl (.inr h))
      | green => exact .inl (.inr h)
      | blue => exact .inr h

theorem pstart_mem_subOperations_tick {s : State} {tr tg tb : Byte} :
    .pstart tr tg tb ∈ subOperations .tick s ↔ s.cnt.val = 254 ∧ tr = s.thRed ∧ tg = s.thGreen ∧ tb = s.thBlue := by
  rw [mem_subOperations_tick, Instr.pstart.injEq, or_iff_left]
  rintro ⟨c, -, h⟩
  exact matchOperation_ne_pstart c _ tr tg tb h.symm

theorem matchOperation_mem_subOperations_tick {s : State} {c : Channel} {t : Byte} :
    matchOperation c t ∈ subOperations .tick s ↔ t = s.th c ∧ t ≠ 0 ∧ (s.cnt.val + 1) % 255 = t.toNat := by
  rw [mem_subOperations_tick, or_iff_right fun h => matchOperation_ne_pstart c t _ _ _ h.2]
  constructor
  · rintro ⟨d, hreached, h⟩
    obtain ⟨rfl, rfl⟩ := matchOperation_eq_iff.1 h
    exact ⟨rfl, hreached⟩
  · rintro ⟨rfl, hreached⟩
    exact ⟨c, hreached, rfl⟩

/-- Settles O19. -/
theorem periodStartAssertsNonzeroChannels : Obligations.PeriodStartAssertsNonzeroChannels := by
  intro s tr tg tb
  refine ⟨?_, pstart_mem_subOperations_tick, s.resetRegisters, exec_reset s, s.out_resetRegisters⟩
  rw [exec_pstart, State.periodStart_eq]

/-- Settles O20: one lemma for the effect and one for the condition serve the three channels. -/
theorem matchDeassertsOnlyItsChannel : Obligations.MatchDeassertsOnlyItsChannel := fun s t =>
  ⟨congrArg Host.Outcome.next (s.matchChannel_eq .red t), congrArg Host.Outcome.next (s.matchChannel_eq .green t),
    congrArg Host.Outcome.next (s.matchChannel_eq .blue t), matchOperation_mem_subOperations_tick (c := .red),
    matchOperation_mem_subOperations_tick (c := .green), matchOperation_mem_subOperations_tick (c := .blue)⟩

/-- Operations performed one after the other never stop on the way (R130). -/
theorem runOperations_eq_foldl (is : List Instr) (s : State) :
    runOperations is s = .next (is.foldl State.afterOperation s) := by
  induction is generalizing s with
  | nil => rfl
  | cons i is ih => simp only [runOperations, exec_eq_next_afterOperation, ih, List.foldl_cons]

/-- An operation that is performed on a condition. -/
theorem foldl_afterOperation_ite (p : Prop) [Decidable p] (i : Instr) (s : State) :
    (if p then [i] else []).foldl State.afterOperation s = if p then s.afterOperation i else s := by
  split <;> rfl

/-- Settles O22: each conditional part of the tick is the sub-operation selected on the same condition. -/
theorem tickPerformsItsSubOperations : Obligations.TickPerformsItsSubOperations := by
  intro s n hn
  obtain rfl : n = nextCount s.cnt := Fin.ext (hn.trans (nextCount_val s.cnt).symm)
  rw [exec_tick, runOperations_eq_foldl]
  simp only [subOperations, List.foldl_append, foldl_afterOperation_ite]
  rfl

/-! ### One output along one tick -/

/-- A threshold of 0 is neither asserted nor matched (R78, decision D7). -/
theorem State.out_tick_of_th_eq_zero {s : State} {c : Channel} (h : s.th c = 0) :
    (s.tickWith .suppressed).out c = s.out c := by
  rw [State.out_tick, h]
  by_cases h0 : (nextCount s.cnt).val = 0 <;> simp [h0]

/-- A threshold of 255 is never matched: the counter stays below it (R78). -/
theorem State.out_tick_of_th_eq_255 {s : State} {c : Channel} (h : s.th c = 255) :
    (s.tickWith .suppressed).out c = (decide (s.cnt.val = 254) || s.out c) := by
  have hlt := (nextCount s.cnt).isLt
  have hne : (nextCount s.cnt).val ≠ (255 : Byte).toNat := hlt.ne
  have hwrap : (nextCount s.cnt).val = 0 ↔ s.cnt.val = 254 := by rw [← nextCount_eq_zero_iff, Fin.ext_iff]; rfl
  rw [State.out_tick, h, if_neg hne]
  by_cases h254 : s.cnt.val = 254 <;> simp [hwrap, h254]

/-- The wrap asserts exactly the outputs of nonzero thresholds, and those that were asserted already stay (R72). -/
theorem State.out_tick_of_wrap {s : State} (c : Channel) (h : s.cnt.val = 254) :
    (s.tickWith .suppressed).out c = (decide (s.th c ≠ 0) || s.out c) := by
  rw [State.out_tick, (nextCount_eq_zero_iff s.cnt).2 h]
  exact if_pos rfl

/-! ### The closed form (R79) -/

/-- A channel's output is asserted exactly when its threshold is nonzero and above the counter (R79). -/
def State.InClosedForm (s : State) (c : Channel) : Prop := s.out c = decide (s.th c ≠ 0 ∧ s.cnt.val < (s.th c).toNat)

/-- A threshold above the counter is not 0. -/
theorem State.inClosedForm_iff {s : State} {c : Channel} :
    s.InClosedForm c ↔ s.out c = decide (s.cnt.val < (s.th c).toNat) := by
  rw [State.InClosedForm, decide_eq_decide.2 (and_iff_right_of_imp fun hlt h0 => by simp [h0] at hlt)]

/-- A period start brings a channel of nonzero threshold into the closed form, whatever its output was. -/
theorem State.inClosedForm_tick_of_wrap {s : State} {c : Channel} (hcnt : s.cnt.val = 254) (hth : s.th c ≠ 0) :
    (s.tickWith .suppressed).InClosedForm c := by
  have hpos : 0 < (s.th c).toNat := Nat.pos_of_ne_zero fun h0 => hth (BitVec.eq_of_toNat_eq h0)
  rw [State.inClosedForm_iff, State.out_tick_of_wrap c hcnt, State.th_tickWith, State.cnt_tickWith,
    (nextCount_eq_zero_iff s.cnt).2 hcnt, Fin.val_zero, decide_eq_true hth, decide_eq_true hpos, Bool.true_or]

/-- The closed form is kept: a threshold of 0 is inert, the wrap sets up the others, and any other tick clears an output
exactly when the counter leaves the values below its threshold. -/
theorem State.inClosedForm_tick {s : State} {c : Channel} (h : s.InClosedForm c) :
    (s.tickWith .suppressed).InClosedForm c := by
  by_cases hth : s.th c = 0
  · rw [State.inClosedForm_iff, hth] at h
    rw [State.inClosedForm_iff, State.out_tick_of_th_eq_zero hth, State.th_tickWith, hth, h]
    simp
  by_cases hcnt : s.cnt.val = 254
  · exact State.inClosedForm_tick_of_wrap hcnt hth
  · have hn : (nextCount s.cnt).val = s.cnt.val + 1 := by rw [nextCount_val_ite, if_neg hcnt]
    rw [State.inClosedForm_iff] at h ⊢
    rw [State.out_tick, State.th_tickWith, State.cnt_tickWith, hn, h, if_neg (Nat.succ_ne_zero _)]
    split
    next hreached => simp [← hreached]
    next hne =>
      rw [decide_eq_decide]
      omega

/-! ### What an event does to the counter and the outputs -/

@[simp] theorem State.out_receiveByte (s : State) (l : Link) (b : Byte) (c : Channel) :
    (s.receiveByte l b).out c = s.out c := by
  unfold State.receiveByte
  split_ifs <;> simp

@[simp] theorem State.cnt_receiveByte (s : State) (l : Link) (b : Byte) : (s.receiveByte l b).cnt = s.cnt := by
  unfold State.receiveByte
  split_ifs <;> simp

/-- Settles O25: a byte moves neither the counter nor an output, `RESET` clears the output and its threshold, and a tick keeps
the closed form. -/
theorem closedFormOfOutputIsKept : Obligations.ClosedFormOfOutputIsKept := by
  intro s t c h hstep hkeep
  obtain ⟨-, rfl⟩ | ⟨e, rest, -, -, rfl⟩ := step_eq_next_cases hstep
  · exact h
  cases e with
  | reset => simp [State.afterEvent]
  | timer low =>
    have hrest : (s.withInput rest).InClosedForm c := by simpa [State.InClosedForm] using h
    exact State.inClosedForm_tick hrest
  | rx l b =>
    rw [hkeep]
    simpa [State.afterEvent] using h

/-- An output of threshold 0 that is clear stays clear through every event (R78). -/
theorem State.out_afterEvent_of_th_eq_zero {s : State} {c : Channel} (e : Event) (hth : s.th c = 0)
    (hout : s.out c = false) : (s.afterEvent e).out c = false := by
  cases e with
  | reset => exact s.out_resetRegisters c
  | timer low => exact (State.out_tick_of_th_eq_zero hth).trans hout
  | rx l b => exact (s.out_receiveByte l b c).trans hout

/-- An output of threshold 255 that is asserted stays so through every event but `RESET` (R78). -/
theorem State.out_afterEvent_of_th_eq_255 {s : State} {c : Channel} {e : Event} (he : e ≠ .reset) (hth : s.th c = 255)
    (hout : s.out c = true) : (s.afterEvent e).out c = true := by
  cases e with
  | reset => exact absurd rfl he
  | timer low => rw [State.afterEvent, State.out_tick_of_th_eq_255 hth, hout, Bool.or_true]
  | rx l b => exact (s.out_receiveByte l b c).trans hout

/-- Settles O24: the idle step changes nothing, and each event keeps the two boundary thresholds' outputs. -/
theorem boundaryThresholdsHoldTheirOutputs : Obligations.BoundaryThresholdsHoldTheirOutputs := by
  intro s t c hstep
  obtain ⟨hin, rfl⟩ | ⟨e, rest, hin, -, rfl⟩ := step_eq_next_cases hstep
  · exact ⟨fun _ hout => hout, fun _ hout _ => hout, fun _ _ htick => by simp [hin] at htick⟩
  rw [hin, List.head?_cons, ← s.th_withInput rest, ← s.out_withInput rest, ← s.cnt_withInput rest]
  refine ⟨State.out_afterEvent_of_th_eq_zero e, fun hth hout he => ?_, fun hth hcnt htick => ?_⟩
  · exact State.out_afterEvent_of_th_eq_255 (fun h => he (congrArg some h)) hth hout
  · obtain rfl := Option.some.inj htick
    rw [tickEvent, State.afterEvent, State.out_tick_of_th_eq_255 hth, decide_eq_true hcnt, Bool.true_or]

/-! ### Runs of ticks -/

/-- The state after `n` ticks. -/
def State.afterTicks (s : State) (n : Nat) : State := (fun u => u.tickWith .suppressed)^[n] s

theorem State.afterTicks_succ (s : State) (n : Nat) :
    s.afterTicks (n + 1) = (s.afterTicks n).tickWith .suppressed :=
  Function.iterate_succ_apply' _ n s

theorem State.afterTicks_succ' (s : State) (n : Nat) :
    s.afterTicks (n + 1) = (s.tickWith .suppressed).afterTicks n := rfl

theorem runEvents_replicate_tick (s : State) (n : Nat) :
    runEvents (List.replicate n tickEvent) s = .next ((s.afterTicks n).withInput []) := by
  induction n generalizing s with
  | zero => rfl
  | succ n ih => rw [List.replicate_succ, runEvents_tick, ih, State.afterTicks_succ']

@[simp] theorem State.th_afterTicks (s : State) (n : Nat) (c : Channel) : (s.afterTicks n).th c = s.th c := by
  induction n with
  | zero => rfl
  | succ n ih => rw [State.afterTicks_succ, State.th_tickWith, ih]

theorem State.cnt_afterTicks (s : State) (n : Nat) : (s.afterTicks n).cnt.val = (s.cnt.val + n) % 255 := by
  induction n with
  | zero => exact (Nat.mod_eq_of_lt s.cnt.isLt).symm
  | succ n ih => rw [State.afterTicks_succ, State.cnt_tickWith, nextCount_val, ih, Nat.mod_add_mod, Nat.add_assoc]

theorem State.inClosedForm_afterTicks {s : State} {c : Channel} (h : s.InClosedForm c) (n : Nat) :
    (s.afterTicks n).InClosedForm c := by
  induction n with
  | zero => exact h
  | succ n ih => rw [State.afterTicks_succ]; exact State.inClosedForm_tick ih

/-- Settles O18: the counter along ticks, and the access table's column of the counter (`State.cnt_afterOperation`). -/
theorem counterCountsModulo255 : Obligations.CounterCountsModulo255 := by
  refine ⟨fun s n => ⟨_, runEvents_replicate_tick s n, s.cnt_afterTicks n⟩, fun i s t htick hreset h => ?_⟩
  rw [exec_eq_next_afterOperation] at h
  obtain rfl := Host.Outcome.next.inj h
  exact s.cnt_afterOperation hreset htick

/-- Settles O23: the wrap brings the channel into the closed form, the ticks of the period keep it, and after `k` of them the
counter is at `k`. -/
theorem channelIsAssertedBelowItsThreshold : Obligations.ChannelIsAssertedBelowItsThreshold := by
  intro s c k hcnt hpos _ hk
  have hth : s.th c ≠ 0 := fun h => by simp [h] at hpos
  have hcntK : (s.afterTicks (k + 1)).cnt.val = k := by rw [State.cnt_afterTicks]; omega
  have hclosed : (s.afterTicks (k + 1)).InClosedForm c :=
    State.inClosedForm_afterTicks (State.inClosedForm_tick_of_wrap hcnt hth) k
  rw [State.inClosedForm_iff, State.th_afterTicks, hcntK] at hclosed
  exact ⟨_, runEvents_replicate_tick s (k + 1), hcntK, (State.out_withInput _ [] c).trans hclosed⟩

/-- An output along ticks is a function of the counter, its threshold and its value at the start (R80). -/
theorem State.out_afterTicks_congr {s u : State} {c : Channel} (n : Nat) (hcnt : s.cnt = u.cnt) (hth : s.th c = u.th c)
    (hout : s.out c = u.out c) : (s.afterTicks n).out c = (u.afterTicks n).out c := by
  induction n generalizing s u with
  | zero => exact hout
  | succ n ih =>
    rw [State.afterTicks_succ', State.afterTicks_succ']
    refine ih ?_ ?_ ?_
    · rw [State.cnt_tickWith, State.cnt_tickWith, hcnt]
    · rw [State.th_tickWith, State.th_tickWith, hth]
    · rw [State.out_tick, State.out_tick, hcnt, hth, hout]

/-- Settles O26. -/
theorem channelIgnoresOtherChannels : Obligations.ChannelIgnoresOtherChannels := by
  intro s u s' u' c n hcnt hth hout hs hu
  rw [runEvents_replicate_tick] at hs hu
  obtain rfl := Host.Outcome.next.inj hs
  obtain rfl := Host.Outcome.next.inj hu
  rw [State.out_withInput, State.out_withInput]
  exact State.out_afterTicks_congr n hcnt hth hout

/-! ### The first period after reset (R83) -/

/-- Every output is clear. -/
def State.Dark (s : State) : Prop := ∀ c, s.out c = false

/-- A tick that does not wrap asserts no output. -/
theorem State.dark_tick {s : State} (h : s.Dark) (hcnt : s.cnt.val ≠ 254) : (s.tickWith .suppressed).Dark := by
  intro c
  have hn : ¬ (nextCount s.cnt).val = 0 := by rw [nextCount_val_ite, if_neg hcnt]; exact Nat.succ_ne_zero _
  rw [State.out_tick, if_neg hn, h c, ite_self]

/-- The events of the block: `RESET`, the tick and the bytes (R7, R60). -/
theorem Event.cases_of_wf {e : Event} (h : e.wf = true) : e = .reset ∨ e = tickEvent ∨ ∃ l b, e = .rx l b := by
  cases e with
  | reset => exact .inl rfl
  | timer low => exact .inr (.inl (congrArg Event.timer (eq_of_beq h)))
  | rx l b => exact .inr (.inr ⟨l, b, rfl⟩)

/-- Before the counter wraps, events other than `RESET` only count their ticks and leave a dark block dark. -/
theorem exists_dark_run {es : List Event} {s : State} (hes : ∀ e ∈ es, e.wf = true ∧ e ≠ .reset) (hdark : s.Dark)
    (hlt : s.cnt.val + es.count tickEvent < 255) :
    ∃ t, runEvents es s = .next t ∧ t.cnt.val = s.cnt.val + es.count tickEvent ∧ t.Dark := by
  induction es generalizing s with
  | nil => exact ⟨s.withInput [], rfl, rfl, fun c => (s.out_withInput [] c).trans (hdark c)⟩
  | cons e es ih =>
    obtain ⟨⟨hwf, hreset⟩, hrest⟩ := List.forall_mem_cons.1 hes
    obtain rfl | rfl | ⟨l, b, rfl⟩ := Event.cases_of_wf hwf
    · exact absurd rfl hreset
    · rw [List.count_cons_self] at hlt ⊢
      have hwrap : s.cnt.val ≠ 254 := by omega
      have hcnt : (s.tickWith .suppressed).cnt.val = s.cnt.val + 1 := by
        rw [State.cnt_tickWith, nextCount_val_ite, if_neg hwrap]
      obtain ⟨t, hrun, ht, htdark⟩ := ih hrest (State.dark_tick hdark hwrap) (by omega)
      exact ⟨t, (runEvents_tick es s).trans hrun, by omega, htdark⟩
    · have hne : Event.rx l b ≠ tickEvent := by simp [tickEvent]
      rw [List.count_cons_of_ne hne, ← s.cnt_receiveByte l b] at hlt ⊢
      rw [runEvents_rx]
      exact ih hrest (fun c => (s.out_receiveByte l b c).trans (hdark c)) hlt

/-- Settles O27: the counter starts at 0 and wraps at the 255th tick, and the wrap asserts the nonzero thresholds. -/
theorem firstPeriodAfterResetIsDark : Obligations.FirstPeriodAfterResetIsDark := by
  intro es hes
  have hcnt : State.reset.cnt.val + es.count tickEvent = es.count tickEvent := Nat.zero_add _
  have hrun := exists_dark_run hes State.out_reset
  rw [hcnt] at hrun
  constructor
  · intro hlt
    obtain ⟨t, hrun, -, hdark⟩ := hrun hlt
    exact ⟨t, hrun, hdark⟩
  · intro h254
    obtain ⟨t, hrun, ht, hdark⟩ := hrun (by omega)
    have htick : runEvents [tickEvent] t = .next ((t.tickWith .suppressed).withInput []) := runEvents_tick [] t
    refine ⟨_, (runEvents_append [tickEvent] hrun).trans htick, fun c => ?_⟩
    rw [State.out_withInput, State.th_withInput, State.th_tickWith, State.out_tick_of_wrap c (ht.trans h254), hdark c,
      Bool.or_false]

/-! ### The two readings of D7 -/

/-- The readings differ on a threshold of 0 only. -/
theorem matchFires_fires_of_ne_zero {t : Byte} (n : Count) (h : t ≠ 0) :
    matchFires .fires n t = matchFires .suppressed n t := by
  simp only [matchFires, decide_eq_true h, Bool.true_and]

/-- Under the reading that D7 sets aside, the wrap clears an output of threshold 0. -/
theorem State.out_tickWith_fires_of_th_eq_zero {s : State} {c : Channel} (h : s.th c = 0) :
    (s.tickWith .fires).out c = if s.cnt.val = 254 then false else s.out c := by
  have hfires : matchFires .fires (nextCount s.cnt) 0 = true ↔ s.cnt.val = 254 := by
    rw [matchFires_fires_iff, ← nextCount_eq_zero_iff, Fin.ext_iff]; rfl
  rw [State.out_tickWith, h]
  simp only [hfires, nextCount_eq_zero_iff]
  by_cases h254 : s.cnt.val = 254 <;> simp [h254, outAtMatch_eq]

theorem State.tickWith_fires_eq_of_clear {s : State} (h : ∀ c, s.th c = 0 → s.out c = false) :
    s.tickWith .suppressed = s.tickWith .fires := by
  refine State.eq_of_accessors (by simp) (by simp) (fun c => ?_) (by simp) (by simp) (by simp)
  by_cases hth : s.th c = 0
  · rw [State.out_tick_of_th_eq_zero hth, State.out_tickWith_fires_of_th_eq_zero hth, h c hth, ite_self]
  · rw [State.out_tickWith, State.out_tickWith, matchFires_fires_of_ne_zero _ hth]

/-- Settles O30: both readings keep a clear output of threshold 0, and only the one set aside clears an asserted one. -/
theorem zeroMatchPoliciesAgreeOnClearOutputs : Obligations.ZeroMatchPoliciesAgreeOnClearOutputs := by
  intro s
  refine ⟨fun h => congrArg Host.Outcome.next (State.tickWith_fires_eq_of_clear h), fun c hth hcnt => ⟨?_, fun hout => ?_⟩⟩
  · rw [State.out_tickWith_fires_of_th_eq_zero hth, if_pos hcnt]
  · exact ⟨s.tickWith .suppressed, exec_tick s, (State.out_tick_of_th_eq_zero hth).trans hout⟩

end Sys2Proof.Machine
end

section
/-!
SUPPORT. Link decoder of the model (spec/41_link_decoder.md): what each of its operations does (R92 to R98), the transition
table and the frame of a received byte (R91, R99), stalled links (R97), the packet laws (R100, R101, R104), and that the two
decoders are one (R102). `State.receiveByte` says what a byte does; the proofs about packets go through
`State.receiveBytes`.
-/
namespace Sys2Proof

/-! ### The layout of a packet (R50) -/

theorem Packet.wf_iff (p : Packet) : p.wf = true ↔ 3 ≤ p.length.toNat ∧ p.rest.length + 3 = p.length.toNat := by
  simp [Packet.wf]

/-- The bytes of a packet after its length byte. -/
def Packet.body (p : Packet) : List Byte := p.red :: p.green :: p.blue :: p.rest

theorem Packet.bytes_eq_cons_body (p : Packet) : p.bytes = p.length :: p.body := rfl

theorem Packet.length_body {p : Packet} (hp : p.wf = true) : p.body.length = p.length.toNat :=
  (p.wf_iff.1 hp).2

/-- The duty a packet holds for a channel. -/
def Packet.duty (p : Packet) : Channel → Byte
  | .red => p.red
  | .green => p.green
  | .blue => p.blue

end Sys2Proof

namespace Sys2Proof.Machine

/-! ### Which operation a byte runs, and what each does -/

/-- Settles O10: `receiveOperation` is the choice written out. -/
theorem receivedByteRunsOperationOfCursorState : Obligations.ReceivedByteRunsOperationOfCursorState :=
  fun _ _ _ _ hin => step_rx hin

/-- Settles O31: `loadedRemaining` is the count, and the two branches are those of the header. -/
theorem lengthByteLoadsCursorAndEmitsHeader : Obligations.LengthByteLoadsCursorAndEmitsHeader := by
  intro s l b
  refine ⟨loadedRemaining b, loadedRemaining_toNat b, fun hlarge => ⟨?_, ?_⟩, fun hsmall => ?_⟩
  · exact BitVec.toNat_sub_of_le (BitVec.le_def.2 (Nat.le_trans (by decide) hlarge))
  · rw [exec_rxLen, s.takeLength_large l hlarge]
  · rw [exec_rxLen, s.takeLength_small l hsmall]

/-- Settles O32. -/
theorem redByteIsStoredAndCounted : Obligations.RedByteIsStoredAndCounted := fun s l b =>
  congrArg Host.Outcome.next (s.takeDuty_hold .red (fun _ => 2) l b)

/-- Settles O33. -/
theorem greenByteIsStoredAndCounted : Obligations.GreenByteIsStoredAndCounted := fun s l b =>
  congrArg Host.Outcome.next (s.takeDuty_hold .green (fun _ => 3) l b)

/-- Settles O34: a decremented count of 1 is a count of 2 before (`stateAfterBlue_decremented`). -/
theorem blueByteEndsPacketAtCountOne : Obligations.BlueByteEndsPacketAtCountOne := by
  intro s l b
  rw [exec_rxBlue, State.takeDuty_hold, stateAfterBlue_decremented, decremented]

/-- Settles O35. -/
theorem payloadByteIsRelayedOrEndsPacket : Obligations.PayloadByteIsRelayedOrEndsPacket := fun s l b =>
  congrArg Host.Outcome.next (s.takePayload_hold l b)

/-! ### The underflow policy (D5) -/

/-- With bytes left to count no policy drops a duty byte. -/
theorem State.takeDuty_eq_hold {s : State} {l : Link} (p : UnderflowPolicy) (c : Channel) (after : Remaining → StateCode)
    (b : Byte) (h : (s.cur l).remaining ≠ 0) : s.takeDuty p c after l b = s.takeDuty .hold c after l b := by
  simp only [State.takeDuty, starved_eq_false _ h]

/-- With bytes left to count no policy drops a payload byte. -/
theorem State.takePayload_eq_hold {s : State} {l : Link} (p : UnderflowPolicy) (b : Byte) (h : (s.cur l).remaining ≠ 0) :
    s.takePayload p l b = s.takePayload .hold l b := by
  simp only [State.takePayload, starved_eq_false _ h]

/-- Settles O44. -/
theorem underflowPolicyMattersOnlyAtZero : Obligations.UnderflowPolicyMattersOnlyAtZero := by
  intro s l b p h
  rw [State.takeDuty_eq_hold p .red _ b h, State.takeDuty_eq_hold p .green _ b h, State.takeDuty_eq_hold p .blue _ b h,
    State.takePayload_eq_hold p b h]
  exact ⟨exec_rxRed s l b, exec_rxGreen s l b, exec_rxBlue s l b, exec_rxPass s l b⟩

/-! ### Stalled links (R97, R98) -/

theorem Cursor.stalled_iff (k : Cursor) : k.stalled = true ↔ k.state ≠ 0 ∧ k.remaining = 0 ∨ 5 ≤ k.state.toNat := by
  simp [Cursor.stalled, StateCode.awaitLength]

/-- A byte on a stalled link changes nothing: with nothing left to count its operation drops it (D5), and in an unrecognised
state it has none (D6). -/
theorem State.receiveByte_of_stalled {s : State} {l : Link} (b : Byte) (h : (s.cur l).stalled = true) :
    s.receiveByte l b = s := by
  rw [Cursor.stalled_iff] at h
  unfold State.receiveByte
  obtain ⟨hawait, hzero⟩ | hcode := h
  · rw [State.takeDuty_hold, State.takeDuty_hold, State.takeDuty_hold, State.takePayload_hold]
    simp only [if_neg hawait, if_pos hzero, ite_self]
  · have hne : ∀ st : StateCode, st.toNat < 5 → (s.cur l).state ≠ st := fun st hlt heq => by rw [heq] at hcode; omega
    rw [if_neg (hne 0 (by decide)), if_neg (hne 1 (by decide)), if_neg (hne 2 (by decide)), if_neg (hne 3 (by decide)),
      if_neg (hne 4 (by decide))]

/-- A byte that a stalled link takes in is consumed and does nothing else. -/
theorem step_receive_of_stalled {s : State} {l : Link} {b : Byte} {rest : List Event} (hin : s.input = .rx l b :: rest)
    (h : (s.cur l).stalled = true) : step s = .next (s.withInput rest) := by
  rw [step_receive hin, State.receiveByte_of_stalled b (by rwa [State.cur_withInput])]

theorem State.cur_afterEvent_of_stalled {s : State} {l : Link} {e : Event} (h : (s.cur l).stalled = true)
    (he : e ≠ .reset) : (s.afterEvent e).cur l = s.cur l := by
  cases e with
  | reset => exact absurd rfl he
  | timer low => exact s.cur_tickWith .suppressed l
  | rx m b =>
    rw [State.afterEvent]
    by_cases hm : l = m
    · subst hm
      rw [State.receiveByte_of_stalled b h]
    · rw [State.cur_receiveByte, if_neg hm]

theorem exists_run_keeping_stalled {es : List Event} {s : State} {l : Link} (h : (s.cur l).stalled = true)
    (hes : ∀ e ∈ es, e.wf = true ∧ e ≠ .reset) : ∃ t, runEvents es s = .next t ∧ t.cur l = s.cur l := by
  induction es generalizing s with
  | nil => exact ⟨s.withInput [], runEvents_nil s, s.cur_withInput [] l⟩
  | cons e es ih =>
    obtain ⟨⟨hwf, hreset⟩, hes⟩ := List.forall_mem_cons.1 hes
    have hkeep : (s.afterEvent e).cur l = s.cur l := State.cur_afterEvent_of_stalled h hreset
    obtain ⟨t, hrun, hcur⟩ := ih (by rwa [hkeep]) hes
    exact ⟨t, (runEvents_cons_of_wf es s hwf).trans hrun, hcur.trans hkeep⟩

/-- Settles O36: an unrecognised state is one of the two ways to be stalled. -/
theorem unrecognisedStateDropsByte : Obligations.UnrecognisedStateDropsByte :=
  ⟨fun s l x b => ⟨exec_rxNop5 s l b, exec_rxNop67 s l x b⟩,
    fun _ _ _ _ hin hcode => step_receive_of_stalled hin ((Cursor.stalled_iff _).2 (.inr hcode))⟩

/-- Settles O43. -/
theorem stalledLinkIgnoresBytes : Obligations.StalledLinkIgnoresBytes := fun _ _ h =>
  ⟨fun _ _ hin => step_receive_of_stalled hin h, fun _ hes => exists_run_keeping_stalled h hes⟩

/-! ### The transition table (R99) -/

/-- The state in which a cursor waits for the duty byte of a channel (R93 to R95). -/
def dutyState : Channel → StateCode
  | .red => 1
  | .green => 2
  | .blue => 3

/-- A byte writes the threshold whose state the cursor is in, if it is left to be counted (R93 to R95, R97). -/
theorem Cursor.dutyChannel_eq_some_iff {k : Cursor} {c : Channel} :
    k.dutyChannel = some c ↔ k.state = dutyState c ∧ k.remaining ≠ 0 := by
  rw [Cursor.dutyChannel]
  by_cases hr : k.remaining = 0
  · simp [hr]
  · rw [if_neg hr, and_iff_left hr]
    generalize k.state = st
    cases c <;> revert st <;> decide

/-- `Cursor.afterByte` in the rows of R99's table: where a byte is counted, the count alone says whether it ends the packet. -/
theorem Cursor.afterByte_eq_table (st : StateCode) (r : Remaining) (b : Byte) :
    Cursor.afterByte ⟨st, r⟩ b =
      if st = 0 then ⟨1, b.setWidth 9 + 1⟩
      else if 5 ≤ st.toNat ∨ r = 0 then ⟨st, r⟩
      else if st = 1 then ⟨2, r - 1⟩
      else if st = 2 then ⟨3, r - 1⟩
      else if r = 2 then ⟨0, 1⟩
      else ⟨4, r - 1⟩ := by
  by_cases hr : r = 0
  · subst hr
    rcases stateCode_cases st with rfl | rfl | rfl | rfl | rfl | rfl | rfl | rfl <;> rfl
  · have hcounted : ∀ st st', Cursor.counted ⟨st, r⟩ st' = ⟨st', r - 1⟩ := fun _ _ => if_neg hr
    have hlast : (⟨if r = 2 then 0 else 4, r - 1⟩ : Cursor) = if r = 2 then ⟨0, 1⟩ else ⟨4, r - 1⟩ := by
      split
      next h2 => rw [h2]; rfl
      next => rfl
    simp only [Cursor.afterByte, hcounted, hr, or_false]
    rcases stateCode_cases st with rfl | rfl | rfl | rfl | rfl | rfl | rfl | rfl
    case inr.inr.inr.inl => exact hlast
    case inr.inr.inr.inr.inl => exact hlast
    all_goals rfl

/-- Settles O39: the cursor by `Cursor.afterByte_eq_table`, each threshold by `Cursor.dutyChannel_eq_some_iff`. -/
theorem byteFollowsTransitionTable : Obligations.ByteFollowsTransitionTable := by
  intro s t l b rest st r hin hcur hstep
  rw [step_receive hin] at hstep
  obtain rfl := Host.Outcome.next.inj hstep
  have hth : ∀ c, ((s.withInput rest).receiveByte l b).th c = if st = dutyState c ∧ r ≠ 0 then b else s.th c := by
    intro c
    simp only [State.th_receiveByte, State.cur_withInput, State.th_withInput, hcur, Cursor.dutyChannel_eq_some_iff]
  refine ⟨?_, hth .red, hth .green, hth .blue⟩
  rw [State.cur_receiveByte, if_pos rfl, State.cur_withInput, hcur, Cursor.afterByte_eq_table]

/-! ### The frame of a received byte (R91) -/

theorem headerByte_eq (b : Byte) : headerByte b = if 5 ≤ b.toNat then b - 3 else 0 := by
  split
  next h => exact headerByte_large h
  next h => exact headerByte_small (by omega)

/-- Settles O41, one accessor of the state after the byte at a time. -/
theorem decoderStepTouchesOnlyItsOwn : Obligations.DecoderStepTouchesOnlyItsOwn := by
  intro s t l b rest hin hstep
  rw [step_receive hin] at hstep
  obtain rfl := Host.Outcome.next.inj hstep
  refine ⟨?_, ?_, fun c => ?_, ?_, fun d hd => ?_, fun d hd => ?_, fun m hm => ?_, fun m hm => ?_⟩
  · rw [State.cur_receiveByte, if_neg (peer_ne l), State.cur_withInput]
  · rw [State.cnt_receiveByte, State.cnt_withInput]
  · rw [State.out_receiveByte, State.out_withInput]
  · rw [State.input_receiveByte, State.input_withInput]
  · rw [State.th_receiveByte, State.cur_withInput, if_neg hd, State.th_withInput]
  · rw [State.th_receiveByte, State.cur_withInput, if_pos hd]
  · rw [State.txlog_receiveByte, State.cur_withInput, if_neg hm, State.txlog_withInput]
  · rw [State.txlog_receiveByte, State.cur_withInput, if_pos hm, State.txlog_withInput, headerByte_eq]

/-! ### Bytes that arrive one after the other -/

theorem State.cur_receiveByte_self (s : State) (l : Link) (b : Byte) :
    (s.receiveByte l b).cur l = (s.cur l).afterByte b := by
  rw [State.cur_receiveByte, if_pos rfl]

/-- What a sequence of bytes on one link does to the registers and logs (R37). -/
def State.receiveBytes (s : State) (l : Link) (bytes : List Byte) : State := bytes.foldl (fun u b => u.receiveByte l b) s

section ReceiveBytes
variable (s : State) (l : Link)

@[simp] theorem State.receiveBytes_nil : s.receiveBytes l [] = s := rfl

@[simp] theorem State.receiveBytes_cons (b : Byte) (bytes : List Byte) :
    s.receiveBytes l (b :: bytes) = (s.receiveByte l b).receiveBytes l bytes := rfl

theorem runEvents_receive (bytes : List Byte) :
    runEvents (receive l bytes) s = .next ((s.receiveBytes l bytes).withInput []) := by
  induction bytes generalizing s with
  | nil => rfl
  | cons b bytes ih => exact (runEvents_rx (receive l bytes) s l b).trans (ih (s.receiveByte l b))

theorem State.cur_receiveBytes (bytes : List Byte) :
    (s.receiveBytes l bytes).cur l = bytes.foldl Cursor.afterByte (s.cur l) := by
  induction bytes generalizing s with
  | nil => rfl
  | cons b bytes ih => rw [State.receiveBytes_cons, ih, State.cur_receiveByte_self, List.foldl_cons]

@[simp] theorem State.cur_peer_receiveBytes (bytes : List Byte) :
    (s.receiveBytes l bytes).cur (peer l) = s.cur (peer l) := by
  induction bytes generalizing s with
  | nil => rfl
  | cons b bytes ih => rw [State.receiveBytes_cons, ih, State.cur_receiveByte, if_neg (peer_ne l)]

@[simp] theorem State.cnt_receiveBytes (bytes : List Byte) : (s.receiveBytes l bytes).cnt = s.cnt := by
  induction bytes generalizing s with
  | nil => rfl
  | cons b bytes ih => rw [State.receiveBytes_cons, ih, State.cnt_receiveByte]

@[simp] theorem State.out_receiveBytes (bytes : List Byte) (c : Channel) : (s.receiveBytes l bytes).out c = s.out c := by
  induction bytes generalizing s with
  | nil => rfl
  | cons b bytes ih => rw [State.receiveBytes_cons, ih, State.out_receiveByte]

end ReceiveBytes

/-! ### The cursor along a packet (R100) -/

/-- The cursor is inside a packet of which `n` bytes are still to come: its count is `n + 1`, and `n` is at least the number of
duty bytes still to come, or 1. -/
def Cursor.Owes (k : Cursor) (n : Nat) : Prop :=
  k.remaining.toNat = n + 1 ∧ (k.state = 1 ∧ 3 ≤ n ∨ k.state = 2 ∧ 2 ≤ n ∨ (k.state = 3 ∨ k.state = 4) ∧ 1 ≤ n)

theorem Cursor.Owes.state_ne_zero {k : Cursor} {n : Nat} (h : k.Owes n) : k.state ≠ 0 := by
  obtain ⟨-, ⟨hst, -⟩ | ⟨hst, -⟩ | ⟨hst | hst, -⟩⟩ := h <;> rw [hst] <;> decide

/-- A length byte of at least 3 opens a packet of that many bytes more (R92). -/
theorem Cursor.owes_afterByte_of_await {k : Cursor} {b : Byte} (hst : k.state = 0) (hb : 3 ≤ b.toNat) :
    (k.afterByte b).Owes b.toNat := by
  rw [Cursor.afterByte, if_pos hst]
  exact ⟨loadedRemaining_toNat b, .inl ⟨rfl, hb⟩⟩

theorem Cursor.Owes.remaining_ne_zero {k : Cursor} {n : Nat} (h : k.Owes n) : k.remaining ≠ 0 := by
  obtain ⟨hr, -⟩ := h
  intro h0
  simp [h0] at hr

theorem Cursor.Owes.remaining_eq_two_iff {k : Cursor} {n : Nat} (h : k.Owes n) : k.remaining = 2 ↔ n = 1 := by
  obtain ⟨hr, -⟩ := h
  rw [BitVec.toNat_eq, hr]
  exact Nat.succ_inj

/-- Counting one of the bytes still to come. -/
theorem Cursor.Owes.counted_eq {k : Cursor} {n : Nat} (h : k.Owes n) (st : StateCode) :
    k.counted st = ⟨st, k.remaining - 1⟩ :=
  if_neg h.remaining_ne_zero

theorem Cursor.Owes.remaining_sub_one {k : Cursor} {n : Nat} (h : k.Owes (n + 1)) :
    (k.remaining - 1).toNat = n + 1 := by
  obtain ⟨hr, -⟩ := h
  bv_omega

theorem Cursor.Owes.afterByte_of_red {k : Cursor} {n : Nat} (h : k.Owes n) (hst : k.state = 1) (b : Byte) :
    k.afterByte b = ⟨2, k.remaining - 1⟩ := by
  rw [← h.counted_eq]
  simp [Cursor.afterByte, hst]

theorem Cursor.Owes.afterByte_of_green {k : Cursor} {n : Nat} (h : k.Owes n) (hst : k.state = 2) (b : Byte) :
    k.afterByte b = ⟨3, k.remaining - 1⟩ := by
  rw [← h.counted_eq]
  simp [Cursor.afterByte, hst]

/-- From the blue byte on, the cursor ends the packet at its last byte and is in `PASSTHROUGH` before it. -/
theorem Cursor.Owes.afterByte_of_blue_or_passthrough {k : Cursor} {n : Nat} (h : k.Owes n)
    (hst : k.state = 3 ∨ k.state = 4) (b : Byte) :
    k.afterByte b = ⟨if n = 1 then 0 else 4, k.remaining - 1⟩ := by
  rw [← h.counted_eq, ← if_congr h.remaining_eq_two_iff rfl rfl]
  obtain hst | hst := hst <;> simp [Cursor.afterByte, hst]

/-- Every byte of a packet but its last leaves one byte less to come. -/
theorem Cursor.Owes.afterByte {k : Cursor} {n : Nat} (h : k.Owes (n + 1)) (hn : 1 ≤ n) (b : Byte) :
    (k.afterByte b).Owes n := by
  have hr := h.remaining_sub_one
  obtain ⟨-, ⟨hst, hlt⟩ | ⟨hst, hlt⟩ | ⟨hst, -⟩⟩ := id h
  · rw [h.afterByte_of_red hst]
    exact ⟨hr, .inr (.inl ⟨rfl, by omega⟩)⟩
  · rw [h.afterByte_of_green hst]
    exact ⟨hr, .inr (.inr ⟨.inl rfl, hn⟩)⟩
  · rw [h.afterByte_of_blue_or_passthrough hst, if_neg (by omega)]
    exact ⟨hr, .inr (.inr ⟨.inr rfl, hn⟩)⟩

/-- The last byte of a packet ends it. -/
theorem Cursor.Owes.afterByte_eq_of_last {k : Cursor} (h : k.Owes 1) (b : Byte) : k.afterByte b = ⟨0, 1⟩ := by
  obtain ⟨-, ⟨-, hlt⟩ | ⟨-, hlt⟩ | ⟨hst, -⟩⟩ := id h
  · omega
  · omega
  · rw [h.afterByte_of_blue_or_passthrough hst, if_pos rfl, h.remaining_eq_two_iff.2 rfl]
    rfl

theorem Cursor.Owes.foldl_afterByte {k : Cursor} {n : Nat} (bytes : List Byte) (h : k.Owes (bytes.length + n))
    (hn : 1 ≤ n) : (bytes.foldl Cursor.afterByte k).Owes n := by
  induction bytes generalizing k with
  | nil => rwa [List.length_nil, Nat.zero_add] at h
  | cons b bytes ih =>
    rw [List.length_cons, Nat.add_right_comm] at h
    exact ih (h.afterByte (by omega) b)

/-- As many bytes as are still to come end the packet. -/
theorem Cursor.Owes.foldl_afterByte_eq {k : Cursor} {bytes : List Byte} (h : k.Owes bytes.length) :
    bytes.foldl Cursor.afterByte k = ⟨0, 1⟩ := by
  obtain rfl | ⟨init, last, rfl⟩ := List.eq_nil_or_concat bytes
  · obtain ⟨-, hpos⟩ := h
    simp at hpos
  · rw [List.length_concat] at h
    rw [List.concat_eq_append, List.foldl_append]
    exact (h.foldl_afterByte init le_rfl).afterByte_eq_of_last last

/-! ### Packets as a whole -/

/-- The length byte of a well-formed packet opens it. -/
theorem Cursor.owes_afterByte_length {k : Cursor} {p : Packet} (hp : p.wf = true) (hst : k.state = 0) :
    (k.afterByte p.length).Owes p.length.toNat :=
  Cursor.owes_afterByte_of_await hst (p.wf_iff.1 hp).1

theorem Cursor.foldl_afterByte_packet {k : Cursor} {p : Packet} (hp : p.wf = true) (hst : k.state = 0) :
    p.bytes.foldl Cursor.afterByte k = ⟨0, 1⟩ := by
  refine Cursor.Owes.foldl_afterByte_eq (k := k.afterByte p.length) (bytes := p.body) ?_
  rw [Packet.length_body hp]
  exact Cursor.owes_afterByte_length hp hst

theorem State.cur_receiveBytes_packet {s : State} {l : Link} {p : Packet} (hp : p.wf = true) (hst : (s.cur l).state = 0) :
    (s.receiveBytes l p.bytes).cur l = ⟨0, 1⟩ := by
  rw [State.cur_receiveBytes, Cursor.foldl_afterByte_packet hp hst]

/-- A packet that is cut off before its last byte leaves its cursor inside it. -/
theorem Cursor.owes_foldl_afterByte_take {k : Cursor} {p : Packet} {j : Nat} (hp : p.wf = true) (hst : k.state = 0)
    (hpos : 0 < j) (hj : j ≤ p.length.toNat) :
    ((p.bytes.take j).foldl Cursor.afterByte k).Owes (p.length.toNat + 1 - j) := by
  obtain ⟨i, rfl⟩ : ∃ i, j = i + 1 := ⟨j - 1, by omega⟩
  rw [Packet.bytes_eq_cons_body, List.take_succ_cons, List.foldl_cons]
  have hlen : (p.body.take i).length + (p.length.toNat + 1 - (i + 1)) = p.length.toNat := by
    rw [List.length_take, Packet.length_body hp]
    omega
  refine Cursor.Owes.foldl_afterByte _ ?_ (by omega)
  rw [hlen]
  exact Cursor.owes_afterByte_length hp hst

/-- Settles O46: the length byte opens a packet of `L` bytes, each byte leaves one less to come, and the last one ends it. -/
theorem packetEndsAfterDeclaredLength : Obligations.PacketEndsAfterDeclaredLength := by
  intro s l p hp hst
  refine ⟨⟨_, runEvents_receive s l p.bytes, ?_⟩, congrArg (· + 1) (Packet.length_body hp), fun j hpos hj =>
    ⟨_, runEvents_receive s l (p.bytes.take j), ?_⟩⟩
  · rw [State.cur_withInput, State.cur_receiveBytes_packet hp hst]
  · rw [State.cur_withInput, State.cur_receiveBytes]
    exact (Cursor.owes_foldl_afterByte_take hp hst hpos hj).state_ne_zero

/-! ### The thresholds and the logs along a packet (R101) -/

theorem State.receiveByte_of_await {s : State} {l : Link} (b : Byte) (hst : (s.cur l).state = 0) :
    s.receiveByte l b = s.takeLength l b := if_pos hst

/-- A counted byte in the state of a channel writes that channel's threshold and no other. -/
theorem State.th_receiveByte_of_dutyState {s : State} {l : Link} {c : Channel} (b : Byte)
    (hst : (s.cur l).state = dutyState c) (hr : (s.cur l).remaining ≠ 0) (d : Channel) :
    (s.receiveByte l b).th d = if d = c then b else s.th d := by
  have hduty : (s.cur l).dutyChannel = some c := Cursor.dutyChannel_eq_some_iff.2 ⟨hst, hr⟩
  simp [State.th_receiveByte, hduty, eq_comm]

theorem State.txlog_receiveByte_of_dutyState {s : State} {l : Link} {c : Channel} (b : Byte)
    (hst : (s.cur l).state = dutyState c) (m : Link) : (s.receiveByte l b).txlog m = s.txlog m := by
  have hnone : (s.cur l).emissionLink l b = none := by
    rw [Cursor.emissionLink, hst]
    cases c <;> rfl
  simp [State.txlog_receiveByte, hnone]

/-- The cursor awaits the last `n` bytes of a packet, its payload; with `n` = 0 it may be anywhere. -/
def Cursor.InPayload (k : Cursor) (n : Nat) : Prop := n ≠ 0 → k.state = 4 ∧ k.Owes n

theorem Cursor.Owes.inPayload_afterByte {k : Cursor} {n : Nat} (h : k.Owes (n + 1)) (hst : k.state = 3 ∨ k.state = 4)
    (b : Byte) : (k.afterByte b).InPayload n := by
  intro hn
  refine ⟨?_, h.afterByte (Nat.pos_of_ne_zero hn) b⟩
  rw [h.afterByte_of_blue_or_passthrough hst]
  exact if_neg (by omega)

section Payload
variable {s : State} {l : Link}

theorem State.inPayload_receiveByte {n : Nat} (b : Byte) (hst : (s.cur l).state = 4) (h : (s.cur l).Owes (n + 1)) :
    ((s.receiveByte l b).cur l).InPayload n := by
  rw [State.cur_receiveByte_self]
  exact h.inPayload_afterByte (.inr hst) b

theorem State.th_receiveByte_of_passthrough (b : Byte) (hst : (s.cur l).state = 4) (c : Channel) :
    (s.receiveByte l b).th c = s.th c := by
  have hne : (s.cur l).dutyChannel ≠ some c := by
    rw [Ne, Cursor.dutyChannel_eq_some_iff, hst]
    cases c <;> simp [dutyState]
  rw [State.th_receiveByte, if_neg hne]

/-- A payload byte goes out on the peer link, but for the last, which is discarded (R96). -/
theorem State.txlog_receiveByte_of_passthrough {n : Nat} (b : Byte) (hst : (s.cur l).state = 4) (h : (s.cur l).Owes n)
    (m : Link) :
    (s.receiveByte l b).txlog m = if m = peer l ∧ n ≠ 1 then s.txlog m ++ [b] else s.txlog m := by
  have hrelay : (s.cur l).remaining ≠ 0 ∧ (s.cur l).remaining ≠ 2 ↔ n ≠ 1 :=
    (and_iff_right h.remaining_ne_zero).trans (not_congr h.remaining_eq_two_iff)
  have hlink : (s.cur l).emissionLink l b = if n ≠ 1 then some (peer l) else none := by
    rw [Cursor.emissionLink, hst, if_neg (by decide)]
    exact if_congr ((and_iff_right rfl).trans hrelay) rfl rfl
  rw [State.txlog_receiveByte, hlink, hst]
  by_cases hn : n = 1 <;> simp [hn, eq_comm]

theorem State.th_receiveBytes_payload {bytes : List Byte} (h : (s.cur l).InPayload bytes.length) (c : Channel) :
    (s.receiveBytes l bytes).th c = s.th c := by
  induction bytes generalizing s with
  | nil => rfl
  | cons b bytes ih =>
    obtain ⟨hst, howes⟩ := h (Nat.succ_ne_zero _)
    rw [State.receiveBytes_cons, ih (State.inPayload_receiveByte b hst howes),
      State.th_receiveByte_of_passthrough b hst]

theorem State.txlog_receiveBytes_payload {bytes : List Byte} (h : (s.cur l).InPayload bytes.length) (m : Link) :
    (s.receiveBytes l bytes).txlog m = if m = peer l then s.txlog m ++ bytes.dropLast else s.txlog m := by
  induction bytes generalizing s with
  | nil => simp
  | cons b bytes ih =>
    obtain ⟨hst, howes⟩ := h (Nat.succ_ne_zero _)
    rw [State.receiveBytes_cons, ih (State.inPayload_receiveByte b hst howes),
      State.txlog_receiveByte_of_passthrough b hst howes]
    cases bytes with
    | nil => simp
    | cons b' bytes => by_cases hm : m = peer l <;> simp [hm]

end Payload

/-- The duty bytes of a packet find the cursor in the state of each colour in turn, and leave it before the payload. -/
theorem Cursor.afterByte_duties {k : Cursor} {n : Nat} (hst : k.state = 1) (h : k.Owes (n + 3)) (r g b : Byte) :
    ((k.afterByte r).state = 2 ∧ (k.afterByte r).Owes (n + 2)) ∧
      (((k.afterByte r).afterByte g).state = 3 ∧ ((k.afterByte r).afterByte g).Owes (n + 1)) ∧
      (((k.afterByte r).afterByte g).afterByte b).InPayload n := by
  have hstG : (k.afterByte r).state = 2 := by rw [h.afterByte_of_red hst]
  have hG : (k.afterByte r).Owes (n + 2) := h.afterByte (by omega) r
  have hstB : ((k.afterByte r).afterByte g).state = 3 := by rw [hG.afterByte_of_green hstG]
  have hB : ((k.afterByte r).afterByte g).Owes (n + 1) := hG.afterByte (by omega) g
  exact ⟨⟨hstG, hG⟩, ⟨hstB, hB⟩, hB.inPayload_afterByte (.inl hstB) b⟩

/-- The duty bytes of a packet set the three thresholds and are not emitted (R93 to R95). -/
theorem State.receiveBytes_duties {s : State} {l : Link} {p : Packet} {n : Nat} (hst : (s.cur l).state = 1)
    (h : (s.cur l).Owes (n + 3)) :
    ((s.receiveBytes l [p.red, p.green, p.blue]).cur l).InPayload n ∧
      (∀ c, (s.receiveBytes l [p.red, p.green, p.blue]).th c = p.duty c) ∧
      ∀ m, (s.receiveBytes l [p.red, p.green, p.blue]).txlog m = s.txlog m := by
  obtain ⟨⟨hstG, hG⟩, ⟨hstB, hB⟩, hend⟩ := Cursor.afterByte_duties hst h p.red p.green p.blue
  have hcurG : (s.receiveByte l p.red).cur l = (s.cur l).afterByte p.red := s.cur_receiveByte_self l p.red
  have hcurB : ((s.receiveByte l p.red).receiveByte l p.green).cur l =
      ((s.cur l).afterByte p.red).afterByte p.green := by rw [State.cur_receiveByte_self, hcurG]
  rw [← hcurG] at hstG hG
  rw [← hcurB] at hstB hB
  simp only [State.receiveBytes_cons, State.receiveBytes_nil]
  refine ⟨?_, fun c => ?_, fun m => ?_⟩
  · rw [State.cur_receiveByte_self, hcurB]
    exact hend
  · rw [State.th_receiveByte_of_dutyState (c := .blue) _ hstB hB.remaining_ne_zero,
      State.th_receiveByte_of_dutyState (c := .green) _ hstG hG.remaining_ne_zero,
      State.th_receiveByte_of_dutyState (c := .red) _ hst h.remaining_ne_zero]
    cases c <;> rfl
  · rw [State.txlog_receiveByte_of_dutyState (c := .blue) _ hstB, State.txlog_receiveByte_of_dutyState (c := .green) _ hstG,
      State.txlog_receiveByte_of_dutyState (c := .red) _ hst]

/-- A packet is received as its length byte, its duty bytes and its payload, and the payload finds the cursor in
`PASSTHROUGH` (R50, R101). -/
theorem State.receiveBytes_packet {s : State} {l : Link} {p : Packet} (hp : p.wf = true) (hst : (s.cur l).state = 0) :
    (∀ c, (s.receiveBytes l p.bytes).th c = p.duty c) ∧
      ∀ m, (s.receiveBytes l p.bytes).txlog m =
        if m = peer l then (s.takeLength l p.length).txlog m ++ p.rest.dropLast
        else (s.takeLength l p.length).txlog m := by
  have hsplit : s.receiveBytes l p.bytes =
      ((s.takeLength l p.length).receiveBytes l [p.red, p.green, p.blue]).receiveBytes l p.rest := by
    rw [← State.receiveByte_of_await p.length hst]
    rfl
  have howes : ((s.cur l).afterByte p.length).Owes (p.rest.length + 3) := by
    rw [(p.wf_iff.1 hp).2]
    exact Cursor.owes_afterByte_length hp hst
  have hopen : (s.takeLength l p.length).cur l = (s.cur l).afterByte p.length := by
    rw [← State.receiveByte_of_await p.length hst, State.cur_receiveByte_self]
  have hred : ((s.takeLength l p.length).cur l).state = 1 := by rw [State.cur_takeLength, if_pos rfl]
  rw [← hopen] at howes
  obtain ⟨hpayload, hth, htx⟩ := State.receiveBytes_duties (p := p) hred howes
  rw [hsplit]
  exact ⟨fun c => (State.th_receiveBytes_payload hpayload c).trans (hth c), fun m => by
    rw [State.txlog_receiveBytes_payload hpayload, htx]⟩

/-- Settles O47: on the header's two branches, the header goes to its link and the payload to the peer. -/
theorem packetSetsThresholdsAndRelaysPayload : Obligations.PacketSetsThresholdsAndRelaysPayload := by
  intro s l p hp hst
  obtain ⟨hth, htx⟩ := State.receiveBytes_packet hp hst
  obtain ⟨hmin, hlen⟩ := p.wf_iff.1 hp
  refine ⟨_, runEvents_receive s l p.bytes, ?_⟩
  simp only [State.th_withInput, State.txlog_withInput, State.cur_withInput, State.cnt_withInput, State.out_withInput]
  refine ⟨hth .red, hth .green, hth .blue, ?_, ?_, by simp, by simp, by simp⟩
  · rw [htx, if_neg (ne_peer l)]
    split
    next hsmall => rw [s.takeLength_small l hsmall]; simp
    next hlarge => rw [s.takeLength_large l (by omega)]; simp
  · rw [htx, if_pos rfl]
    split
    next hsmall =>
      have hdiscard : p.rest.dropLast = [] := List.eq_nil_of_length_eq_zero (by rw [List.length_dropLast]; omega)
      rw [s.takeLength_small l hsmall, hdiscard]
      simp
    next hlarge => rw [s.takeLength_large l (by omega)]; simp

/-! ### Packets sent again (R104) -/

/-- Bytes that follow others find the registers and logs that those left. -/
theorem runEvents_receive_append (s : State) (l : Link) (as bs : List Byte) :
    runEvents (receive l (as ++ bs)) s = runEvents (receive l bs) ((s.receiveBytes l as).withInput []) := by
  rw [receive, List.map_append]
  exact runEvents_append _ (runEvents_receive s l as)

/-- Settles O48: what a packet leaves in the thresholds and the cursor does not depend on what was there before it. -/
theorem repeatedPacketLeavesSameThresholds : Obligations.RepeatedPacketLeavesSameThresholds := by
  intro s l hst
  refine ⟨fun r g b => ?_, fun p hp => ?_⟩
  · obtain ⟨t, hrun, hr, hg, hb, htx, -⟩ :=
      packetSetsThresholdsAndRelaysPayload s l ⟨3, r, g, b, []⟩ rfl hst
    obtain ⟨⟨u, hrun', hcur⟩, -⟩ := packetEndsAfterDeclaredLength s l ⟨3, r, g, b, []⟩ rfl hst
    obtain rfl := Host.Outcome.next.inj (hrun.symm.trans hrun')
    exact ⟨t, hrun, hr, hg, hb, htx, by rw [hcur]⟩
  · have hcur := State.cur_receiveBytes_packet hp hst
    have hagain : (((s.receiveBytes l p.bytes).withInput []).cur l).state = 0 := by rw [State.cur_withInput, hcur]
    refine ⟨_, _, runEvents_receive s l p.bytes,
      (runEvents_receive_append s l p.bytes p.bytes).trans (runEvents_receive _ l p.bytes), ?_, fun c => ?_⟩
    · simp only [State.cur_withInput]
      rw [State.cur_receiveBytes_packet hp hagain, hcur]
    · simp only [State.th_withInput]
      rw [(State.receiveBytes_packet hp hagain).1, (State.receiveBytes_packet hp hst).1]

/-! ### The links exchanged (R102) -/

section Mirror
variable (s : State)

@[simp] theorem State.th_mirror (c : Channel) : s.mirror.th c = s.th c := by cases c <;> rfl
@[simp] theorem State.out_mirror (c : Channel) : s.mirror.out c = s.out c := by cases c <;> rfl
@[simp] theorem State.cnt_mirror : s.mirror.cnt = s.cnt := rfl
@[simp] theorem State.cur_mirror (l : Link) : s.mirror.cur l = s.cur (peer l) := by cases l <;> rfl
@[simp] theorem State.txlog_mirror (l : Link) : s.mirror.txlog l = s.txlog (peer l) := by cases l <;> rfl
@[simp] theorem State.input_mirror : s.mirror.input = s.input.map Event.mirror := rfl

theorem State.withInput_mirror (es : List Event) : (s.withInput es).mirror = s.mirror.withInput (es.map Event.mirror) := rfl

theorem peer_eq_iff {l m : Link} : peer l = m ↔ l = peer m := by
  cases l <;> cases m <;> decide

/-- A byte received on the other link is emitted on the other link. -/
theorem Cursor.emissionLink_peer_eq_some {k : Cursor} {l m : Link} {b : Byte} :
    k.emissionLink (peer l) b = some m ↔ k.emissionLink l b = some (peer m) := by
  simp only [Cursor.emissionLink]
  split_ifs <;> simp [peer_eq_iff]

theorem State.tickWith_mirror : s.mirror.tickWith .suppressed = (s.tickWith .suppressed).mirror :=
  State.eq_of_accessors (by simp) (by simp) (by simp [State.out_tick]) (by simp) (by simp) (by simp)

theorem State.resetRegisters_mirror : s.mirror.resetRegisters = s.resetRegisters.mirror := rfl

/-- Whatever one decoder does with a byte, the other does (R102, decision D12). -/
theorem State.receiveByte_mirror (l : Link) (b : Byte) :
    s.mirror.receiveByte (peer l) b = (s.receiveByte l b).mirror := by
  refine State.eq_of_accessors (fun c => ?_) (by simp) (by simp) (fun m => ?_) (fun m => ?_) (by simp)
  · simp only [State.th_receiveByte, State.th_mirror, State.cur_mirror, peer_peer]
  · simp only [State.cur_receiveByte, State.cur_mirror, peer_peer, peer_eq_iff]
  · simp only [State.txlog_receiveByte, State.txlog_mirror, State.cur_mirror, peer_peer,
      Cursor.emissionLink_peer_eq_some]

theorem State.afterEvent_mirror (e : Event) : s.mirror.afterEvent e.mirror = (s.afterEvent e).mirror := by
  cases e with
  | reset => exact s.resetRegisters_mirror
  | timer low => exact s.tickWith_mirror
  | rx l b => exact s.receiveByte_mirror l b

theorem Event.wf_mirror (e : Event) : e.mirror.wf = e.wf := by
  cases e <;> rfl

end Mirror

/-- Settles O50: an event and its mirror image are refused alike or change mirror images alike (`State.afterEvent_mirror`). -/
theorem decodersAreMirrorImages : Obligations.DecodersAreMirrorImages := by
  intro s
  cases hin : s.input with
  | nil =>
    have hmirror : s.mirror.input = [] := by rw [State.input_mirror, hin]; rfl
    rw [step_idle hin, step_idle hmirror]
    rfl
  | cons e rest =>
    have hmirror : s.mirror.input = e.mirror :: rest.map Event.mirror := by rw [State.input_mirror, hin]; rfl
    by_cases he : e.wf = true
    · rw [step_of_wf hin he, step_of_wf hmirror (by rwa [Event.wf_mirror]), ← State.withInput_mirror,
        State.afterEvent_mirror]
      rfl
    · cases e with
      | reset => exact absurd rfl he
      | rx l b => exact absurd rfl he
      | timer low =>
        have hlow : low ≠ 0 := fun h0 => he (beq_iff_eq.2 h0)
        rw [reservedTimerWordIsRefused s low rest hin hlow, reservedTimerWordIsRefused _ low _ hmirror hlow]
        rfl

end Sys2Proof.Machine
end

section
/-!
SUPPORT. Cross-link router of the model (spec/42_cross_link_router.md): the binding `peer` (R120), the routing table (R121) and
`EMIT` (R122). The table is `Cursor.emissionLink`, read once for the peer link and once for the decoder's own.
-/
namespace Sys2Proof.Machine

/-! ### The binding and `EMIT` (R120, R122) -/

theorem code_peer (l : Link) : (peer l).code = 1 - l.code := by
  cases l <;> rfl

/-- Settles O7. -/
theorem peerExchangesTheTwoLinks : Obligations.PeerExchangesTheTwoLinks :=
  ⟨rfl, rfl, code_peer⟩

/-- Settles O37: `EMIT` is `State.transmit`, read accessor by accessor. -/
theorem emitAppendsToOneLog : Obligations.EmitAppendsToOneLog := by
  intro s l v
  refine ⟨s.transmit l v, exec_emit s l v, ?_, ?_, s.cnt_transmit l v, s.input_transmit l v,
    fun c => ⟨s.th_transmit l v c, s.out_transmit l v c⟩, s.cur_transmit l v⟩
  · rw [State.txlog_transmit, if_pos rfl]
  · rw [State.txlog_transmit, if_neg (peer_ne l)]

/-! ### The routing table (R121) -/

/-- The two rows of R121 that send to the peer link: the derived header, and a payload byte that does not end its packet. -/
theorem Cursor.emissionLink_eq_some_peer_iff {k : Cursor} {l : Link} {b : Byte} :
    k.emissionLink l b = some (peer l) ↔
      k.state = 0 ∧ 5 ≤ b.toNat ∨ k.state = 4 ∧ k.remaining ≠ 0 ∧ k.remaining ≠ 2 := by
  rw [Cursor.emissionLink, StateCode.awaitLength, StateCode.passthrough]
  by_cases h0 : k.state = 0
  · by_cases hb : 5 ≤ b.toNat <;> simp [h0, hb]
  · rw [if_neg h0, or_iff_right fun ⟨h, _⟩ => h0 h]
    split
    next hrelay => exact iff_of_true rfl hrelay
    next hrelay => exact iff_of_false (by simp) hrelay

/-- The one row of R121 that sends to the decoder's own link: the `0x00` of a short length byte. -/
theorem Cursor.emissionLink_eq_some_self_iff {k : Cursor} {l : Link} {b : Byte} :
    k.emissionLink l b = some l ↔ k.state = 0 ∧ b.toNat ≤ 4 := by
  rw [Cursor.emissionLink, StateCode.awaitLength]
  by_cases h0 : k.state = 0
  · rw [if_pos h0, and_iff_right h0]
    split
    next hb => exact iff_of_false (by simp) (by omega)
    next hb => exact iff_of_true rfl (by omega)
  · rw [if_neg h0]
    refine iff_of_false ?_ fun ⟨h, _⟩ => h0 h
    split <;> simp

theorem State.txlog_peer_receiveByte (s : State) (l : Link) (b : Byte) :
    (s.receiveByte l b).txlog (peer l) = s.txlog (peer l) ++
      (if (s.cur l).state = 0 ∧ 5 ≤ b.toNat then [b - 3]
        else if (s.cur l).state = 4 ∧ (s.cur l).remaining ≠ 0 ∧ (s.cur l).remaining ≠ 2 then [b] else []) := by
  rw [State.txlog_receiveByte]
  simp only [Cursor.emissionLink_eq_some_peer_iff]
  by_cases hheader : (s.cur l).state = 0 ∧ 5 ≤ b.toNat
  · rw [if_pos (.inl hheader), if_pos hheader, if_pos hheader.1, headerByte_large hheader.2]
  · simp only [hheader, false_or, if_false]
    split
    next hrelay => rw [if_neg (by rw [hrelay.1]; decide)]
    next => rw [List.append_nil]

theorem State.txlog_self_receiveByte (s : State) (l : Link) (b : Byte) :
    (s.receiveByte l b).txlog l = s.txlog l ++ (if (s.cur l).state = 0 ∧ b.toNat ≤ 4 then [0] else []) := by
  rw [State.txlog_receiveByte]
  simp only [Cursor.emissionLink_eq_some_self_iff]
  split
  next hshort => rw [if_pos hshort.1, headerByte_small hshort.2]
  next => rw [List.append_nil]

/-- The colour rows of R121: a counted byte in the state of a channel goes to that channel's threshold. -/
theorem State.th_receiveByte_eq_byte {s : State} {l : Link} (b : Byte) (c : Channel) (hr : (s.cur l).remaining ≠ 0)
    (hst : (s.cur l).state = dutyState c) : (s.receiveByte l b).th c = b := by
  rw [State.th_receiveByte_of_dutyState b hst hr, if_pos rfl]

/-- Settles O40: the two logs and the thresholds after a byte, then the logs after a tick. -/
theorem emissionsFollowRoutingTable : Obligations.EmissionsFollowRoutingTable := by
  intro s t rest hstep
  refine ⟨fun l b hin => ?_, fun hin m => ?_⟩
  · rw [step_receive hin] at hstep
    obtain rfl := Host.Outcome.next.inj hstep
    have hcur : (s.withInput rest).cur l = s.cur l := s.cur_withInput rest l
    refine ⟨?_, ?_, fun hr => ?_⟩
    · rw [State.txlog_peer_receiveByte, hcur, State.txlog_withInput]
    · rw [State.txlog_self_receiveByte, hcur, State.txlog_withInput]
    · rw [← hcur] at hr ⊢
      exact ⟨State.th_receiveByte_eq_byte b .red hr, State.th_receiveByte_eq_byte b .green hr,
        State.th_receiveByte_eq_byte b .blue hr⟩
  · rw [step_tick hin] at hstep
    obtain rfl := Host.Outcome.next.inj hstep
    rw [State.txlog_tickWith, State.txlog_withInput]

end Sys2Proof.Machine
end

section
/-!
SUPPORT. Exceptions of the model (spec/60_exceptions.md): no operation stops the block (R130), which events may be exchanged
(R134), the timer's boundary thresholds (R140), and the idle block (R144). A tick and a byte, and two bytes on different links,
are exchanged as updates of the registers (`State.tickWith_receiveByte_comm`, `State.receiveByte_comm`); the runs follow.
-/
namespace Sys2Proof.Machine

/-! ### Nothing stops the block (R130, R144) -/

/-- Settles O12. -/
theorem idleBlockKeepsItsState : Obligations.IdleBlockKeepsItsState := fun _ hin => step_idle hin

/-- Settles O13: every operation has the state it leaves, and a step is idle or takes its event whole. -/
theorem noOperationFaults : Obligations.NoOperationFaults := by
  refine ⟨fun i s => ⟨s.afterOperation i, exec_eq_next_afterOperation i s⟩, fun s hhead => ?_⟩
  cases hin : s.input with
  | nil => exact ⟨s, step_idle hin, hin⟩
  | cons e rest =>
    have hwf : e.wf = true := hhead e (by rw [hin]; exact rfl)
    exact ⟨_, step_of_wf hin hwf, (State.input_afterEvent _ e).trans (s.input_withInput rest)⟩

/-! ### The timer's boundary thresholds (R140) -/

/-- A match that a tick performs has a nonzero threshold that the counter can reach. -/
theorem threshold_bounds_of_match {s : State} {c : Channel} {t : Byte}
    (h : matchOperation c t ∈ subOperations .tick s) : 1 ≤ t.toNat ∧ t.toNat ≤ 254 := by
  obtain ⟨-, hzero, hcount⟩ := matchOperation_mem_subOperations_tick.1 h
  have hpos : t.toNat ≠ 0 := fun h0 => hzero (BitVec.eq_of_toNat_eq h0)
  omega

/-- Settles O21: one lemma for the three channels. -/
theorem boundaryThresholdsProduceNoMatch : Obligations.BoundaryThresholdsProduceNoMatch := by
  rintro s t (h | h | h)
  · exact threshold_bounds_of_match (c := .red) h
  · exact threshold_bounds_of_match (c := .green) h
  · exact threshold_bounds_of_match (c := .blue) h

/-! ### A tick and a byte (R134) -/

theorem State.th_receiveByte_of_dutyChannel_eq_none {s : State} {l : Link} (b : Byte) (c : Channel)
    (h : (s.cur l).dutyChannel = none) : (s.receiveByte l b).th c = s.th c := by
  rw [State.th_receiveByte, h, if_neg (Option.some_ne_none c).symm]

/-- The tick reads the thresholds and the counter, and the byte writes neither; the byte reads its cursor, and the tick writes
none. -/
theorem State.tickWith_receiveByte_comm {s : State} {l : Link} (b : Byte) (h : (s.cur l).dutyChannel = none) :
    (s.tickWith .suppressed).receiveByte l b = (s.receiveByte l b).tickWith .suppressed := by
  have hth (c : Channel) : (s.receiveByte l b).th c = s.th c := State.th_receiveByte_of_dutyChannel_eq_none b c h
  have htick : ((s.tickWith .suppressed).cur l).dutyChannel = none := by rwa [State.cur_tickWith]
  refine State.eq_of_accessors (fun c => ?_) (by simp) (fun c => ?_) (fun m => ?_) (fun m => ?_) (by simp)
  · rw [State.th_receiveByte_of_dutyChannel_eq_none b c htick, State.th_tickWith, State.th_tickWith, hth]
  · rw [State.out_receiveByte, State.out_tick, State.out_tick, State.cnt_receiveByte, State.out_receiveByte, hth]
  · simp only [State.cur_receiveByte, State.cur_tickWith]
  · simp only [State.txlog_receiveByte, State.txlog_tickWith, State.cur_tickWith]

/-- Settles O53. -/
theorem tickCommutesWithNonDutyByte : Obligations.TickCommutesWithNonDutyByte := by
  intro s l b h
  rw [runEvents_tick, runEvents_rx, runEvents_rx, runEvents_tick, State.tickWith_receiveByte_comm b h]

/-! ### Two bytes on different links (R134) -/

theorem State.cur_receiveByte_of_ne {l m : Link} (s : State) (b : Byte) (hm : m ≠ l) :
    (s.receiveByte l b).cur m = s.cur m := by
  rw [State.cur_receiveByte, if_neg hm]

/-- Each byte moves its own cursor only, so what the other writes and emits is decided as before; where they write different
thresholds and append to different logs, the order leaves no trace. -/
theorem State.receiveByte_comm {s : State} {l m : Link} {b₁ b₂ : Byte} (hlm : l ≠ m)
    (hth : ∀ c, ¬ ((s.cur l).dutyChannel = some c ∧ (s.cur m).dutyChannel = some c))
    (htx : ∀ n, ¬ ((s.cur l).emissionLink l b₁ = some n ∧ (s.cur m).emissionLink m b₂ = some n)) :
    (s.receiveByte l b₁).receiveByte m b₂ = (s.receiveByte m b₂).receiveByte l b₁ := by
  have hcurm : (s.receiveByte l b₁).cur m = s.cur m := s.cur_receiveByte_of_ne b₁ hlm.symm
  have hcurl : (s.receiveByte m b₂).cur l = s.cur l := s.cur_receiveByte_of_ne b₂ hlm
  refine State.eq_of_accessors (fun c => ?_) (by simp) (by simp) (fun n => ?_) (fun n => ?_) (by simp)
  · simp only [State.th_receiveByte, hcurm, hcurl]
    apply ite_ite_comm
    exact fun hm hl => hth c ⟨hl, hm⟩
  · rw [State.cur_receiveByte (s.receiveByte l b₁) m n, State.cur_receiveByte (s.receiveByte m b₂) l n, hcurm, hcurl,
      State.cur_receiveByte s l n, State.cur_receiveByte s m n]
    apply ite_ite_comm
    exact fun hm hl => hlm (hl.symm.trans hm)
  · simp only [State.txlog_receiveByte, hcurm, hcurl]
    by_cases hl : (s.cur l).emissionLink l b₁ = some n
    · have hm : ¬ (s.cur m).emissionLink m b₂ = some n := fun hm => htx n ⟨hl, hm⟩
      rw [if_neg hm, if_neg hm]
    · rw [if_neg hl, if_neg hl]

/-- Settles O54. -/
theorem bytesOnDifferentLinksCommute : Obligations.BytesOnDifferentLinksCommute := by
  intro s b₁ b₂ hth htx
  have hcomm : (s.receiveByte .usb b₁).receiveByte .pin b₂ = (s.receiveByte .pin b₂).receiveByte .usb b₁ :=
    State.receiveByte_comm (by decide) hth htx
  rw [runEvents_rx, runEvents_rx, runEvents_rx, runEvents_rx, hcomm]

end Sys2Proof.Machine
end

section
/-!
SUPPORT. Reset and hazards of the model (spec/70_reset_and_hazards.md): `RESET` (R150), a threshold written in mid-period (R160,
R162), the packets that leave a link out of step (R163, R166), and that the block never hangs (R171). The hazards of the PWM
engine are read off `State.afterTicks`, those of the links off the cursors.
-/
namespace Sys2Proof.Machine

/-! ### Reset (R150) -/

/-- Settles O55, register by register. -/
theorem resetWritesEveryRegister : Obligations.ResetWritesEveryRegister := fun s =>
  ⟨s.resetRegisters, exec_reset s, rfl, fun c => ⟨s.th_resetRegisters c, s.out_resetRegisters c⟩,
    fun l => ⟨s.cur_resetRegisters l, s.txlog_resetRegisters l⟩, s.input_resetRegisters⟩

/-! ### Liveness (R171) -/

/-- A run on events of the block takes them one after the other and meets nothing that stops it. -/
theorem runEvents_eq_foldl_afterEvent {es : List Event} (s : State) (hes : ∀ e ∈ es, e.wf = true) :
    runEvents es s = .next ((es.foldl State.afterEvent s).withInput []) := by
  induction es generalizing s with
  | nil => rfl
  | cons e es ih =>
    obtain ⟨he, hes⟩ := List.forall_mem_cons.1 hes
    rw [runEvents_cons_of_wf es s he, ih (s.afterEvent e) hes, List.foldl_cons]

/-- Settles O14. -/
theorem everyEventSequenceCompletes : Obligations.EveryEventSequenceCompletes := fun _ s hes =>
  ⟨_, runEvents_eq_foldl_afterEvent s hes, State.input_withInput _ []⟩

/-! ### A threshold written in mid-period (R160, R162) -/

/-- A tick that does not wrap clears the output whose threshold it reaches, and no other (R73 to R75). -/
theorem State.out_tick_of_cnt_ne_254 {s : State} (c : Channel) (h : s.cnt.val ≠ 254) :
    (s.tickWith .suppressed).out c = if s.cnt.val + 1 = (s.th c).toNat then false else s.out c := by
  rw [State.out_tick, nextCount_val_ite, if_neg h, if_neg (Nat.succ_ne_zero _)]

/-- Up to the end of the period, an output is cleared when the counter comes to its threshold, if that is still ahead. -/
theorem State.out_afterTicks_of_le {s : State} (c : Channel) {j : Nat} (h : s.cnt.val + j ≤ 254) :
    (s.afterTicks j).out c =
      if s.cnt.val < (s.th c).toNat ∧ (s.th c).toNat ≤ s.cnt.val + j then false else s.out c := by
  induction j with
  | zero => exact (if_neg (by omega)).symm
  | succ j ih =>
    have hcnt : (s.afterTicks j).cnt.val = s.cnt.val + j := by
      rw [State.cnt_afterTicks, Nat.mod_eq_of_lt (by omega)]
    rw [State.afterTicks_succ, State.out_tick_of_cnt_ne_254 c (by omega), hcnt, State.th_afterTicks, ih (by omega)]
    by_cases hreached : s.cnt.val + j + 1 = (s.th c).toNat
    · rw [if_pos hreached, if_pos (by omega)]
    · rw [if_neg hreached]
      exact if_congr (by omega) rfl rfl

/-- No tick changes the output of a channel with threshold 0 (R162, decision D7). -/
theorem State.out_afterTicks_of_th_eq_zero {s : State} {c : Channel} (h : s.th c = 0) (n : Nat) :
    (s.afterTicks n).out c = s.out c := by
  induction n with
  | zero => rfl
  | succ n ih => rw [State.afterTicks_succ, State.out_tick_of_th_eq_zero (by rwa [State.th_afterTicks]), ih]

/-- The next period start asserts a channel of nonzero threshold (R72). -/
theorem State.out_afterTicks_of_next_start {s : State} {c : Channel} (h : s.th c ≠ 0) :
    (s.afterTicks (255 - s.cnt.val)).out c = true := by
  have hlt := s.cnt.isLt
  have hlast : (s.afterTicks (254 - s.cnt.val)).cnt.val = 254 := by rw [State.cnt_afterTicks]; omega
  have hn : 255 - s.cnt.val = 254 - s.cnt.val + 1 := by omega
  rw [hn, State.afterTicks_succ, State.out_tick_of_wrap c hlast, State.th_afterTicks, decide_eq_true h, Bool.true_or]

/-- Settles O28: the ticks before the wrap, then the wrap on a nonzero and on a zero threshold. -/
theorem outputForRestOfPeriod : Obligations.OutputForRestOfPeriod := by
  intro s c
  refine ⟨fun j hj => ⟨_, runEvents_replicate_tick s j, ?_⟩, _, runEvents_replicate_tick s _, ?_, fun hth => ?_,
    fun hth => ?_⟩
  · rw [State.out_withInput, State.out_afterTicks_of_le c hj]
  · have hlt := s.cnt.isLt
    rw [State.cnt_withInput, State.cnt_afterTicks]
    omega
  · rw [State.out_withInput, State.out_afterTicks_of_next_start hth]
  · rw [State.out_withInput, State.out_afterTicks_of_th_eq_zero hth]

/-- Settles O29. -/
theorem assertedOutputStaysOnAtZeroThreshold : Obligations.AssertedOutputStaysOnAtZeroThreshold := by
  intro s c n hth hout
  refine ⟨_, runEvents_replicate_tick s n, ?_⟩
  rw [State.out_withInput, State.out_afterTicks_of_th_eq_zero hth, hout]

/-! ### Length bytes below 3 (R163) -/

/-- A byte received in `AWAIT_LENGTH` opens a packet, whatever its value (R92). -/
theorem Cursor.afterByte_of_await {k : Cursor} (hst : k.state = 0) (n : Byte) : k.afterByte n = ⟨1, loadedRemaining n⟩ :=
  if_pos hst

/-- The thresholds after a length byte and three bytes more, by the cursors that those three find: `k₁`, `k₂` and `k₃`. -/
theorem exists_run_of_trace {s : State} {l : Link} (n r g b : Byte) {k₁ k₂ k₃ k₄ : Cursor}
    (hst : (s.cur l).state = 0) (hload : ⟨1, loadedRemaining n⟩ = k₁) (hred : k₁.afterByte r = k₂)
    (hgreen : k₂.afterByte g = k₃) (hblue : k₃.afterByte b = k₄) :
    ∃ t, runEvents (receive l [n, r, g, b]) s = .next t ∧ t.cur l = k₄ ∧
      ∀ c, t.th c = if k₃.dutyChannel = some c then b else if k₂.dutyChannel = some c then g
        else if k₁.dutyChannel = some c then r else s.th c := by
  have hopen : (s.cur l).afterByte n = k₁ := (Cursor.afterByte_of_await hst n).trans hload
  refine ⟨_, runEvents_receive s l [n, r, g, b], ?_, fun c => ?_⟩
  · simp only [State.cur_withInput, State.cur_receiveBytes, List.foldl_cons, List.foldl_nil, hopen, hred, hgreen, hblue]
  · have hkeep : (s.receiveByte l n).th c = s.th c := by rw [State.receiveByte_of_await n hst, State.th_takeLength]
    rw [State.th_withInput, State.receiveBytes_cons, State.receiveBytes_cons, State.receiveBytes_cons,
      State.receiveBytes_cons, State.receiveBytes_nil]
    simp only [State.th_receiveByte _ l b, State.th_receiveByte _ l g, State.th_receiveByte _ l r, hkeep,
      State.cur_receiveByte_self, hopen, hred, hgreen]

/-- Settles O45: the lengths 0, 1 and 2 load the counts 1, 2 and 3, which run out at the red, the green and the blue byte. A
cursor whose count ran out neither moves nor names a threshold. -/
theorem shortPacketsStallTheLink : Obligations.ShortPacketsStallTheLink := by
  intro s l r g b hst
  refine ⟨?_, ?_, ?_⟩
  · obtain ⟨t, hrun, hcur, hth⟩ := exists_run_of_trace 0 r g b (k₁ := ⟨1, 1⟩) (k₂ := ⟨2, 0⟩) (k₃ := ⟨2, 0⟩)
      (k₄ := ⟨2, 0⟩) hst rfl rfl rfl rfl
    exact ⟨t, hrun, hcur, hth .red, hth .green, hth .blue⟩
  · obtain ⟨t, hrun, hcur, hth⟩ := exists_run_of_trace 1 r g b (k₁ := ⟨1, 2⟩) (k₂ := ⟨2, 1⟩) (k₃ := ⟨3, 0⟩)
      (k₄ := ⟨3, 0⟩) hst rfl rfl rfl rfl
    exact ⟨t, hrun, hcur, hth .red, hth .green, hth .blue⟩
  · obtain ⟨t, hrun, hcur, hth⟩ := exists_run_of_trace 2 r g b (k₁ := ⟨1, 3⟩) (k₂ := ⟨2, 2⟩) (k₃ := ⟨3, 1⟩)
      (k₄ := ⟨4, 0⟩) hst rfl rfl rfl rfl
    exact ⟨t, hrun, hcur, hth .red, hth .green, hth .blue⟩

/-! ### The relayed stream (R166) -/

theorem toNat_relayedLength {p : Packet} (hlen : 5 ≤ p.length.toNat) : (p.length - 3).toNat + 3 = p.length.toNat := by
  bv_omega

theorem length_dropLast_rest {p : Packet} (hp : p.wf = true) (hlen : 5 ≤ p.length.toNat) :
    p.rest.dropLast.length + 4 = p.length.toNat := by
  obtain ⟨-, hrest⟩ := p.wf_iff.1 hp
  rw [List.length_dropLast]
  omega

/-- The relayed stream of a packet with `L` = 5 is a length byte of 2 and one byte more. -/
theorem exists_relayed_eq_of_length_eq_five {p : Packet} (hp : p.wf = true) (h5 : p.length.toNat = 5) :
    ∃ y, (p.length - 3) :: p.rest.dropLast = [2, y] := by
  have hlen : p.rest.dropLast.length + 4 = p.length.toNat := length_dropLast_rest hp (by omega)
  obtain ⟨y, hy⟩ := List.length_eq_one_iff.1 (show p.rest.dropLast.length = 1 by omega)
  have htwo : p.length - 3 = 2 := by bv_omega
  exact ⟨y, by rw [hy, htwo]⟩

/-- From `L` = 6 on the relayed length byte opens a packet, of which all but the last byte follow. -/
theorem Cursor.owes_foldl_afterByte_relayed {k : Cursor} {p : Packet} (hp : p.wf = true) (hlen : 6 ≤ p.length.toNat)
    (hst : k.state = 0) : (((p.length - 3) :: p.rest.dropLast).foldl Cursor.afterByte k).Owes 1 := by
  have hhead := toNat_relayedLength (p := p) (by omega)
  have htail := length_dropLast_rest hp (by omega)
  have hcount : p.rest.dropLast.length + 1 = (p.length - 3).toNat := by omega
  rw [List.foldl_cons]
  refine Cursor.Owes.foldl_afterByte _ ?_ le_rfl
  rw [hcount]
  exact Cursor.owes_afterByte_of_await hst (by omega)

/-- The receiver of a relayed stream is left inside a packet: for `L` = 5 before its green byte, above before its last. -/
theorem exists_waiting_run_of_relayed {s : State} {m : Link} {p : Packet} (hp : p.wf = true) (hlen : 5 ≤ p.length.toNat)
    (hst : (s.cur m).state = 0) :
    ∃ t, runEvents (receive m ((p.length - 3) :: p.rest.dropLast)) s = .next t ∧ (t.cur m).state ≠ 0 := by
  obtain h5 | h6 := Nat.eq_or_lt_of_le hlen
  · obtain ⟨y, hy⟩ := exists_relayed_eq_of_length_eq_five hp h5.symm
    have hred : (⟨1, loadedRemaining 2⟩ : Cursor).afterByte y = ⟨2, 2⟩ := rfl
    refine ⟨_, runEvents_receive s m _, ?_⟩
    rw [hy, State.cur_withInput, State.cur_receiveBytes, List.foldl_cons, Cursor.afterByte_of_await hst, List.foldl_cons,
      hred]
    decide
  · refine ⟨_, runEvents_receive s m _, ?_⟩
    rw [State.cur_withInput, State.cur_receiveBytes]
    exact (Cursor.owes_foldl_afterByte_relayed hp h6 hst).state_ne_zero

/-- Settles O49: one byte is owed from `L` = 6 on, and for `L` = 5 the stream and the two bytes after it are a packet of length
2, which stalls (`shortPacketsStallTheLink`). -/
theorem relayedStreamIsOneByteShort : Obligations.RelayedStreamIsOneByteShort := by
  intro s m p hp hlen hst
  refine ⟨?_, exists_waiting_run_of_relayed hp hlen hst, fun h6 x => ⟨_, runEvents_receive s m _, ?_⟩, fun h5 x y => ?_⟩
  · rw [List.length_cons, Nat.add_assoc]
    exact length_dropLast_rest hp hlen
  · rw [State.cur_withInput, State.cur_receiveBytes, List.foldl_append]
    exact (Cursor.owes_foldl_afterByte_relayed hp h6 hst).afterByte_eq_of_last x
  · obtain ⟨g, hrelayed⟩ := exists_relayed_eq_of_length_eq_five hp h5
    obtain ⟨-, -, t, hrun, hcur, -⟩ := shortPacketsStallTheLink s m g x y hst
    rw [hrelayed]
    exact ⟨t, hrun, hcur, by rw [hcur]; rfl⟩

end Sys2Proof.Machine
end
